-- ==== Sys2Proof/Word.lean ====
section
/-! DEFINITION. The value types of 00_scope.md rule R8: Words of 15 bits, Cells of 16 bits, register
indices 0 to 7, and the 16-bit program counter of 10_state.md rule R24. -/

namespace Sys2Proof

/-- `Word`: an unsigned integer in [0, 32767], 15 bits (R8): what a register, a stack element and a
character hold. -/
abbrev Word := BitVec 15

/-- `Cell`: an integer in [0, 65535], 16 bits (R8): the content of one memory cell. -/
abbrev Cell := BitVec 16

/-- `RegIx`: an integer in [0, 7] (R8): the index of a register. -/
abbrev RegIx := Fin 8

/-- The value of the program counter, 16 bits (R24, decision D4). -/
abbrev Pc := BitVec 16

end Sys2Proof
end

