-- ==== Sys2Proof/Config.lean ====
section
/-! DEFINITION. The constants of the machine. The spec leaves no result open as "any value"
(93_implementation_defined.md part 1, last paragraph), so there is no free value here. The parameters
of one run, `MEMLEN` and `STACK_DEPTH` (00_scope.md rule R6), are fields of State, because the image
that is loaded fixes the first (log entries 5 and 6). -/

namespace Sys2Proof

/-- The largest `MEMLEN` (R6, R50, decision D3): the number of addresses a Word can name. -/
def Config.maxMemLen : Nat := 32768

/-- What a cell below `MEMLEN` reads as when the memory list does not name it. DESIGN CHOICE, log
entry 7: the spec gives every cell the image's word, and a word 0 is left out of the list. -/
def Config.unlistedCell : Cell := 0

end Sys2Proof
end

