-- ==== Sys2Proof/Syntax.lean ====
section
/-! DEFINITION. The instructions as syntax: one constructor per row of spec/opcode_table.json, and what
an operand cell can say (30_encoding.md rules R70 to R76). -/

namespace Sys2Proof

/-- What one operand cell says, by its numeric range (R73). Every cell is exactly one of these, so an
instruction holds its operand cells whole, the invalid ones too: a legal opcode with an illegal operand
is still that instruction, and its fault is the operand's (R79). Log entry 9. -/
inductive Operand where
  /-- A cell in [0, 32767]: the literal `v`. -/
  | lit (v : Word)
  /-- A cell in [32768, 32775]: register `r`, the cell's value less 32768. -/
  | reg (r : RegIx)
  /-- A cell in [32776, 65535]: no operand; `k` is the cell's value less 32776. -/
  | invalid (k : Fin 32760)
  deriving DecidableEq, Repr

/-- The closed set of 22 instructions (R76), in the order of their opcodes; `a`, `b`, `c` are the
operand cells in order of address. -/
inductive Instr where
  /-- 0 `halt`. -/
  | halt
  /-- 1 `set a b`. -/
  | set (a b : Operand)
  /-- 2 `push a`. -/
  | push (a : Operand)
  /-- 3 `pop a`. -/
  | pop (a : Operand)
  /-- 4 `eq a b c`. -/
  | eq (a b c : Operand)
  /-- 5 `gt a b c`. -/
  | gt (a b c : Operand)
  /-- 6 `jmp a`. -/
  | jmp (a : Operand)
  /-- 7 `jt a b`. -/
  | jt (a b : Operand)
  /-- 8 `jf a b`. -/
  | jf (a b : Operand)
  /-- 9 `add a b c`. -/
  | add (a b c : Operand)
  /-- 10 `mult a b c`. -/
  | mult (a b c : Operand)
  /-- 11 `mod a b c`. -/
  | mod (a b c : Operand)
  /-- 12 `and a b c`. -/
  | and (a b c : Operand)
  /-- 13 `or a b c`. -/
  | or (a b c : Operand)
  /-- 14 `not a b`. -/
  | not (a b : Operand)
  /-- 15 `rmem a b`. -/
  | rmem (a b : Operand)
  /-- 16 `wmem a b`. -/
  | wmem (a b : Operand)
  /-- 17 `call a`. -/
  | call (a : Operand)
  /-- 18 `ret`. -/
  | ret
  /-- 19 `out a`. -/
  | out (a : Operand)
  /-- 20 `in a` (`in` is a word of Lean). -/
  | inp (a : Operand)
  /-- 21 `noop`. -/
  | noop
  deriving DecidableEq, Repr

end Sys2Proof
end

