-- ==== Sys2Proof/Machine/State.lean ====
section
/-! DEFINITION. The state of the machine (10_state.md), its value after reset (rule R39), and the ways a
step of the model can stop. -/

namespace Sys2Proof.Machine

/-- `STATUS` (R30). The value 3 is never produced and is left out of the type, as R30 allows. -/
inductive RunStatus where
  /-- 0: the core performs steps. -/
  | running
  /-- 1: ended by `halt`, or by `ret` with an empty stack. -/
  | haltedNormal
  /-- 2: ended by a fault; the fault record is valid. -/
  | haltedFault
  deriving DecidableEq, Repr

/-- `FKIND` (R31), in the order of its codes 0 to 7. -/
inductive FaultKind where
  /-- 0: no fault recorded. -/
  | noFault
  /-- 1: an operand or a computed value is out of range. -/
  | outOfRangeValue
  /-- 2: a register-only position holds something else. -/
  | invalidRegister
  /-- 3: an access at or beyond `MEMLEN`. -/
  | addressOutOfBounds
  /-- 4: `pop` on an empty stack. -/
  | stackUnderflow
  /-- 5: the opcode cell is no opcode. -/
  | illegalOpcode
  /-- 6: an instruction transfers control to its own address. -/
  | stuckPC
  /-- 7: the finite stack variant only (R185). -/
  | stackOverflow
  deriving DecidableEq, Repr

/-- Memory contents: pairs of a cell address and a cell, addresses strictly rising, no entry equal to
what an unlisted cell reads as (`Memory.wf`, log entry 7). The smallest unit the spec addresses is the
16-bit cell (R54), so an entry holds a cell and not a byte. -/
abbrev Memory := List (Nat × Cell)

/-- The machine's state. The first nine fields are the architectural state of R20; the last four are the
parameters and the environment of the step (R20), carried here because the step is a function of this
record alone (log entries 4, 5, 6). -/
structure State where
  /-- Registers `x[0]` to `x[7]` (R21). -/
  x : Vector Word 8
  /-- Program counter (R24). -/
  pc : Pc
  /-- The stack `S`, the most recently pushed Word first (R26). -/
  stack : List Word
  /-- The cells `M[0 .. MEMLEN-1]` (R28). -/
  mem : Memory
  /-- `STATUS` (R30). -/
  status : RunStatus
  /-- `FKIND` (R31). -/
  fkind : FaultKind
  /-- `FADDR` (R32). -/
  faddr : Pc
  /-- `FOP` (R32). -/
  fop : Cell
  /-- `FOPV` (R32). -/
  fopv : Bool
  /-- `MEMLEN`, 0 to 32768, fixed for a run (R6, R50). -/
  memLen : Fin (Config.maxMemLen + 1)
  /-- `STACK_DEPTH`: none when the stack is unbounded, the default (R6, R26, R185). -/
  stackDepth : Option Nat
  /-- The characters the input source will still deliver, next one first (R35). -/
  input : List Word
  /-- The characters sent to the output sink, first one first (R36). -/
  output : List Word
  deriving DecidableEq, Repr

/-- Reasons for which a step of the MODEL ends with no next state. There is none: every exceptional
condition of the spec ends the run by an entry the spec describes (60_exceptions.md R176), which is a
next state with `STATUS` halted and the fault record written (log entry 1); a halted core and a waiting
`in` leave the state as it is (log entries 2, 3). -/
inductive Fault where
  deriving DecidableEq, Repr

/-- Reasons for which the model gives an instruction no meaning. -/
inductive Refusal where
  /-- Raised only by an arm of `exec` whose instruction has no meaning yet; safe, since the run stops
  there. No arm raises it in this model. -/
  | notModelled (mnemonic : String)
  deriving DecidableEq, Repr

/-- The machine right after reset (R39), before any image is loaded: `MEMLEN` is 0 and no cell exists
(DESIGN CHOICE, log entry 5), the stack is unbounded (R26), no character is waiting (DESIGN CHOICE, log
entry 4) and none has been sent. -/
def State.reset : State where
  x := Vector.replicate 8 0
  pc := 0
  stack := []
  mem := []
  status := .running
  fkind := .noFault
  faddr := 0
  fop := 0
  fopv := false
  memLen := 0
  stackDepth := none
  input := []
  output := []

end Sys2Proof.Machine
end

