-- ==== Sys2Proof/Machine/Ops.lean ====
section
/-! DEFINITION. The named operations over memory, registers, stack, ports and run status (00_scope.md rule
R9), taking a fault (60_exceptions.md rule R176), and the end of a step (40_step_and_operands.md rules
R96, R99, R102). -/

namespace Sys2Proof.Machine

/-! ### Memory -/

/-- The content of the cell at `k`; what an unlisted cell reads as where the list does not name it. -/
def Memory.cellAt : Memory → Nat → Cell
  | [], _ => Config.unlistedCell
  | (a, c) :: t, k => if a = k then c else Memory.cellAt t k

/-- The memory with the cell at `k` holding `v`, in canonical form. -/
def Memory.store : Memory → Nat → Cell → Memory
  | [], k, v => if v = Config.unlistedCell then [] else [(k, v)]
  | (a, c) :: t, k, v =>
    if k < a then (if v = Config.unlistedCell then (a, c) :: t else (k, v) :: (a, c) :: t)
    else if k = a then (if v = Config.unlistedCell then t else (k, v) :: t)
    else (a, c) :: Memory.store t k v

/-- The canonical form: addresses strictly rising, no entry equal to what an unlisted cell reads as. -/
def Memory.wf : Memory → Bool
  | [] => true
  | (a, c) :: t => c != Config.unlistedCell && t.all (fun e => decide (a < e.1)) && Memory.wf t

/-- Every listed address is below `n`. -/
def Memory.below (m : Memory) (n : Nat) : Bool := m.all fun e => decide (e.1 < n)

/-- The memory that holds the words of `img` from address `k` on and is `m` elsewhere. -/
def Memory.storeList (m : Memory) (k : Nat) : List Cell → Memory
  | [] => m
  | c :: cs => Memory.storeList (m.store k c) (k + 1) cs

/-- A number of cells as `MEMLEN`, for `n` up to 32768. -/
def memLenOf (n : Nat) : Fin (Config.maxMemLen + 1) := Fin.ofNat (Config.maxMemLen + 1) n

/-- `M[k]`, an address that need not exist (R9). -/
def State.cell (s : State) (k : Nat) : Cell := s.mem.cellAt k

/-- `MemRead(addr, 1)` (R9, R57). -/
def memRead (s : State) (addr : Nat) : Except FaultKind Cell :=
  if addr < s.memLen.val then .ok (s.cell addr) else .error .addressOutOfBounds

/-- The state with the whole cell at `k` replaced (R56). -/
def State.writeCell (s : State) (k : Nat) (v : Cell) : State := { s with mem := s.mem.store k v }

/-- `MemWrite(addr, 1, v)` with `v` a Word widened by a zero bit (R9, R57, R151). -/
def memWrite (s : State) (addr : Nat) (v : Word) : Except FaultKind State :=
  if addr < s.memLen.val then .ok (s.writeCell addr (v.setWidth 16)) else .error .addressOutOfBounds

/-! ### Registers -/

/-- Read register `r` (R9). -/
def State.readReg (s : State) (r : RegIx) : Word := s.x[r]

/-- Write register `r` (R9). -/
def State.writeReg (s : State) (r : RegIx) (v : Word) : State := { s with x := s.x.set r.val v r.isLt }

/-! ### Program counter -/

/-- Set the program counter. -/
def State.setPc (s : State) (t : Pc) : State := { s with pc := t }

/-- The address of the next instruction in memory after one of `n` cells (R25). -/
def State.fallThrough (s : State) (n : Nat) : Pc := s.pc + BitVec.ofNat 16 n

/-- A target Word as a program counter value, widened with zeros (R9 `zext_N`, R135). -/
def target (t : Word) : Pc := t.setWidth 16

/-- The return address a `call` pushes, `p + 2`; it must be a Word (R133, decision D9). -/
def returnAddress (s : State) : Except FaultKind Word :=
  if s.pc.toNat + 2 > 32767 then .error .outOfRangeValue else .ok (BitVec.ofNat 15 (s.pc.toNat + 2))

/-! ### Stack -/

/-- Replace the stack. -/
def State.setStack (s : State) (st : List Word) : State := { s with stack := st }

/-- Whether one more Word fits: always, when the stack is unbounded (R26, R185; log entry 12). -/
def State.hasRoom (s : State) : Bool :=
  match s.stackDepth with
  | none => true
  | some d => decide (s.stack.length < d)

/-- `push(v)` (R9, R26); `StackOverflow` in the finite variant when the stack is full (R185). -/
def pushWord (s : State) (v : Word) : Except FaultKind State :=
  if s.hasRoom then .ok (s.setStack (v :: s.stack)) else .error .stackOverflow

/-- `top()` and `drop()` together (R9); none when the stack is empty. -/
def popWord (s : State) : Option (Word × State) :=
  match s.stack with
  | [] => none
  | v :: st => some (v, s.setStack st)

/-! ### Character ports -/

/-- Replace what the input source will still deliver. -/
def State.setInput (s : State) (cs : List Word) : State := { s with input := cs }

/-- `InChar()` (R35, R163): the next character, consumed; none when the instruction has to wait. -/
def takeChar (s : State) : Option (Word × State) :=
  match s.input with
  | [] => none
  | c :: cs => some (c, s.setInput cs)

/-- `OutChar(c)` (R36, R162): the code is appended to what the sink has received. -/
def State.sendChar (s : State) (c : Word) : State := { s with output := s.output ++ [c] }

/-! ### Run status and faults -/

/-- `halt_normal` (R178): `STATUS` changes, nothing else. -/
def State.haltNormal (s : State) : State := { s with status := .haltedNormal }

/-- Take the fault `k` (R176): the fault record is written, the run ends, nothing else changes. `FOP` is
the opcode cell `M[p]` when `v` holds and 0 otherwise (R32). There is no return from a fault (R179), so
no operation undoes this one but reset. -/
def State.takeFault (s : State) (k : FaultKind) (v : Bool) : State :=
  { s with
    status := .haltedFault
    fkind := k
    faddr := s.pc
    fop := if v then s.cell s.pc.toNat else 0
    fopv := v }

/-! ### The end of a step -/

/-- What phase 4 of an instruction gives (R95). -/
inductive Effect where
  /-- `continue`: the state with the instruction's writes done, and the next pc. -/
  | commit (t : State) (npc : Pc)
  /-- `halt_normal`. -/
  | haltNormal
  /-- `raise k`. -/
  | raise (k : FaultKind)
  /-- `in` with no character available (R100). -/
  | wait
  deriving DecidableEq, Repr

/-- The outcome type of the machine. -/
abbrev StepOutcome := Host.Outcome State Fault Refusal

/-- A fault of an instruction whose opcode was fetched (R102: `fault(K, 1)`). -/
def raiseFault (s : State) (k : FaultKind) : StepOutcome := .next (s.takeFault k true)

/-- Phase 5 (R96, R102): `s` is the state at the start of the step. A fault, `StuckPC` too, drops the
writes (R99); a wait changes nothing (R100, log entry 3); a commit takes the writes and the next pc. -/
def finish (s : State) : Effect → StepOutcome
  | .commit t npc => if npc = s.pc then raiseFault s .stuckPC else .next (t.setPc npc)
  | .haltNormal => .next s.haltNormal
  | .raise k => raiseFault s k
  | .wait => .next s

/-- What a halted core does: nothing (R101, R179; log entry 2). -/
def idle (s : State) : StepOutcome := .next s

end Sys2Proof.Machine
end

