-- ==== Sys2Proof/Machine/Operands.lean ====
section
/-! DEFINITION. Operand validation and resolution (40_step_and_operands.md rules R93, R94, R97, R98) and
one runner for each of the six formats (30_encoding.md rule R71). A runner checks every operand in order
`a`, `b`, `c`, used or not, against the state at the start of the step, then runs phase 4 and ends the
step. -/

namespace Sys2Proof.Machine

/-- `resolve(o)` (R97): a literal is its value, a register its content, anything else raises
`OutOfRangeValue`. -/
def resolve (s : State) : Operand → Except FaultKind Word
  | .lit v => .ok v
  | .reg r => .ok (s.readReg r)
  | .invalid _ => .error .outOfRangeValue

/-- `regix(o)` (R98): only a register designator is a destination; a literal and an invalid cell alike
raise `InvalidRegister` (R74, R93). -/
def regix : Operand → Except FaultKind RegIx
  | .reg r => .ok r
  | .lit _ => .error .invalidRegister
  | .invalid _ => .error .invalidRegister

/-- The Word in a memory cell, for a register write (R98, R150): a cell above 32767 is no Word. -/
def wordOfCell (c : Cell) : Except FaultKind Word :=
  if c.toNat > 32767 then .error .outOfRangeValue else .ok (c.setWidth 15)

/-- Format `Z`: no operand. -/
def runZ (s : State) (e : Effect) : StepOutcome := finish s e

/-- Format `S`: one source. -/
def runS (s : State) (a : Operand) (f : Word → Effect) : StepOutcome :=
  match resolve s a with
  | .error k => raiseFault s k
  | .ok u => finish s (f u)

/-- Format `D`: one destination. -/
def runD (s : State) (a : Operand) (f : RegIx → Effect) : StepOutcome :=
  match regix a with
  | .error k => raiseFault s k
  | .ok r => finish s (f r)

/-- Format `DS`: a destination and a source. -/
def runDS (s : State) (a b : Operand) (f : RegIx → Word → Effect) : StepOutcome :=
  match regix a with
  | .error k => raiseFault s k
  | .ok r => runS s b (f r)

/-- Format `SS`: two sources. -/
def runSS (s : State) (a b : Operand) (f : Word → Word → Effect) : StepOutcome :=
  match resolve s a with
  | .error k => raiseFault s k
  | .ok u => runS s b (f u)

/-- Format `DSS`: a destination and two sources. -/
def runDSS (s : State) (a b c : Operand) (f : RegIx → Word → Word → Effect) : StepOutcome :=
  match regix a with
  | .error k => raiseFault s k
  | .ok r => runSS s b c (f r)

/-- Phase 4 of an instruction of `n` cells that writes the Word `v` to register `r` and falls through. -/
def writeAndGo (s : State) (r : RegIx) (v : Word) (n : Nat) : Effect :=
  .commit (s.writeReg r v) (s.fallThrough n)

end Sys2Proof.Machine
end

