-- ==== Sys2Proof/Machine/Alu.lean ====
section
/-! DEFINITION. Arithmetic and logic (44_alu.md): `add`, `mult`, `mod`, `and`, `or`, `not`. Sums and
products are exact and then reduced modulo 32768 (R146). -/

namespace Sys2Proof.Machine

/-- An exact result reduced modulo 32768: its bits [14:0] (R146). -/
def reduce (n : Nat) : Word := BitVec.ofNat 15 n

/-- `add a b c` (R140). -/
def execAdd (a b c : Operand) (s : State) : StepOutcome :=
  runDSS s a b c fun r u w => writeAndGo s r (reduce (u.toNat + w.toNat)) 4

/-- `mult a b c` (R141). -/
def execMult (a b c : Operand) (s : State) : StepOutcome :=
  runDSS s a b c fun r u w => writeAndGo s r (reduce (u.toNat * w.toNat)) 4

/-- `mod a b c` (R142): the unsigned remainder; a zero divisor raises `OutOfRangeValue` (decision D8). -/
def execMod (a b c : Operand) (s : State) : StepOutcome :=
  runDSS s a b c fun r u w =>
    if w.toNat = 0 then .raise .outOfRangeValue else writeAndGo s r (reduce (u.toNat % w.toNat)) 4

/-- `and a b c` (R143). -/
def execAnd (a b c : Operand) (s : State) : StepOutcome :=
  runDSS s a b c fun r u w => writeAndGo s r (u &&& w) 4

/-- `or a b c` (R144). -/
def execOr (a b c : Operand) (s : State) : StepOutcome :=
  runDSS s a b c fun r u w => writeAndGo s r (u ||| w) 4

/-- `not a b` (R145): exclusive-or with 0x7FFF. -/
def execNot (a b : Operand) (s : State) : StepOutcome :=
  runDS s a b fun r u => writeAndGo s r (u ^^^ 0x7FFF#15) 3

end Sys2Proof.Machine
end

