-- ==== Sys2Proof/Machine/Flags.lean ====
section
/-! DEFINITION. The machine has no flags (10_state.md rule R29). What stands in their place: the Word 0 or
1 that a comparison writes, and the test of a condition operand against zero. -/

namespace Sys2Proof.Machine

/-- The Word a comparison writes: 1 when it holds, 0 when not (R29, R120, R121). -/
def comparisonWord (b : Bool) : Word := if b then 1 else 0

/-- Equality of two resolved Words (R120). -/
def wordsEqual (u w : Word) : Bool := u.toNat == w.toNat

/-- Unsigned greater-than (R121). -/
def wordGreater (u w : Word) : Bool := decide (u.toNat > w.toNat)

/-- The condition of `jt`: any value but 0 is true (R131). -/
def isNonZero (u : Word) : Bool := u.toNat != 0

end Sys2Proof.Machine
end

