-- ==== Sys2Proof/Machine/Compare.lean ====
section
/-! DEFINITION. Comparison (42_compare.md): `eq`, `gt`. -/

namespace Sys2Proof.Machine

/-- `eq a b c` (R120). -/
def execEq (a b c : Operand) (s : State) : StepOutcome :=
  runDSS s a b c fun r u w => writeAndGo s r (comparisonWord (wordsEqual u w)) 4

/-- `gt a b c` (R121): unsigned. -/
def execGt (a b c : Operand) (s : State) : StepOutcome :=
  runDSS s a b c fun r u w => writeAndGo s r (comparisonWord (wordGreater u w)) 4

end Sys2Proof.Machine
end

