-- ==== Sys2Proof/Machine/Control.lean ====
section
/-! DEFINITION. Control transfer (43_control_transfer.md): `jmp`, `jt`, `jf`, `call`, `ret`. A target is an
absolute cell address and is not checked against `MEMLEN` here (R135); a transfer to the instruction's
own address is `StuckPC` when the step ends (R96). -/

namespace Sys2Proof.Machine

/-- `jmp a` (R130). -/
def execJmp (a : Operand) (s : State) : StepOutcome :=
  runS s a fun t => .commit s (target t)

/-- `jt a b` (R131): jump when the condition is not zero. -/
def execJt (a b : Operand) (s : State) : StepOutcome :=
  runSS s a b fun u t => .commit s (if isNonZero u then target t else s.fallThrough 3)

/-- `jf a b` (R132): jump when the condition is zero. -/
def execJf (a b : Operand) (s : State) : StepOutcome :=
  runSS s a b fun u t => .commit s (if isNonZero u then s.fallThrough 3 else target t)

/-- `call a` (R133): push the address after this instruction and jump. -/
def execCall (a : Operand) (s : State) : StepOutcome :=
  runS s a fun t =>
    match returnAddress s with
    | .error k => .raise k
    | .ok ra =>
      match pushWord s ra with
      | .error k => .raise k
      | .ok s' => .commit s' (target t)

/-- `ret` (R134): jump to the popped address; on an empty stack end the run normally. -/
def execRet (s : State) : StepOutcome :=
  runZ s <|
    match popWord s with
    | none => .haltNormal
    | some (t, s') => .commit s' (target t)

end Sys2Proof.Machine
end

