-- ==== Sys2Proof/Machine/DataMove.lean ====
section
/-! DEFINITION. Data movement (41_data_movement.md): `set`, `push`, `pop`. -/

namespace Sys2Proof.Machine

/-- `set a b` (R110): copy a value into a register. -/
def execSet (a b : Operand) (s : State) : StepOutcome :=
  runDS s a b fun r v => writeAndGo s r v 3

/-- `push a` (R111): push a value on the stack. -/
def execPush (a : Operand) (s : State) : StepOutcome :=
  runS s a fun v =>
    match pushWord s v with
    | .error k => .raise k
    | .ok t => .commit t (s.fallThrough 2)

/-- `pop a` (R112): pop the top of the stack into a register; an empty stack is a fault. -/
def execPop (a : Operand) (s : State) : StepOutcome :=
  runD s a fun r =>
    match popWord s with
    | none => .raise .stackUnderflow
    | some (v, t) => .commit (t.writeReg r v) (s.fallThrough 2)

end Sys2Proof.Machine
end

