-- ==== Sys2Proof/Machine/MemAccess.lean ====
section
/-! DEFINITION. Memory access (45_memory_access.md): `rmem`, `wmem`. -/

namespace Sys2Proof.Machine

/-- `rmem a b` (R150): load the cell at address `resolve(b)`; first the bound, then the range of the cell
read. -/
def execRmem (a b : Operand) (s : State) : StepOutcome :=
  runDS s a b fun r addr =>
    match memRead s addr.toNat with
    | .error k => .raise k
    | .ok c =>
      match wordOfCell c with
      | .error k => .raise k
      | .ok v => writeAndGo s r v 3

/-- `wmem a b` (R151): store the Word `resolve(b)` in the cell at address `resolve(a)`. The operand cells
were read before this store (R63), since the instruction carries them. -/
def execWmem (a b : Operand) (s : State) : StepOutcome :=
  runSS s a b fun addr v =>
    match memWrite s addr.toNat v with
    | .error k => .raise k
    | .ok t => .commit t (s.fallThrough 3)

end Sys2Proof.Machine
end

