-- ==== Sys2Proof/Machine/System.lean ====
section
/-! DEFINITION. System and input/output (46_system_io.md): `halt`, `noop`, `out`, `in`. -/

namespace Sys2Proof.Machine

/-- `halt` (R160): end the run normally. -/
def execHalt (s : State) : StepOutcome := runZ s .haltNormal

/-- `noop` (R161): only the pc moves. -/
def execNoop (s : State) : StepOutcome := runZ s (.commit s (s.fallThrough 1))

/-- `out a` (R162): send one character. -/
def execOut (a : Operand) (s : State) : StepOutcome :=
  runS s a fun c => .commit (s.sendChar c) (s.fallThrough 2)

/-- `in a` (R163): receive one character into a register, or wait with nothing changed (R100). -/
def execIn (a : Operand) (s : State) : StepOutcome :=
  runD s a fun r =>
    match takeChar s with
    | none => .wait
    | some (c, t) => .commit (t.writeReg r c) (s.fallThrough 2)

end Sys2Proof.Machine
end

