-- ==== Sys2Proof/WellFormed.lean ====
section
/-! DEFINITION. When an instruction is well formed: each operand is legal in its position (30_encoding.md
rules R71, R73, R74, R79). An instruction that is not well formed still decodes and still has a meaning:
executing it raises the operand's fault (40_step_and_operands.md rule R93). -/

namespace Sys2Proof

/-- The role of an operand position (R71). -/
inductive Role where
  /-- The position names the register the instruction writes. -/
  | dst
  /-- The position is resolved to a Word. -/
  | src
  deriving DecidableEq, Repr

/-- A `dst` position must hold a register designator (R74); a `src` position anything but an invalid
cell (R73). -/
def Operand.legal : Role → Operand → Bool
  | .dst, .reg _ => true
  | .dst, .lit _ => false
  | .dst, .invalid _ => false
  | .src, .reg _ => true
  | .src, .lit _ => true
  | .src, .invalid _ => false

/-- The operands of an instruction with their roles, in order (the format table of R71). -/
def Instr.operands : Instr → List (Role × Operand)
  | .halt => []
  | .set a b => [(.dst, a), (.src, b)]
  | .push a => [(.src, a)]
  | .pop a => [(.dst, a)]
  | .eq a b c => [(.dst, a), (.src, b), (.src, c)]
  | .gt a b c => [(.dst, a), (.src, b), (.src, c)]
  | .jmp a => [(.src, a)]
  | .jt a b => [(.src, a), (.src, b)]
  | .jf a b => [(.src, a), (.src, b)]
  | .add a b c => [(.dst, a), (.src, b), (.src, c)]
  | .mult a b c => [(.dst, a), (.src, b), (.src, c)]
  | .mod a b c => [(.dst, a), (.src, b), (.src, c)]
  | .and a b c => [(.dst, a), (.src, b), (.src, c)]
  | .or a b c => [(.dst, a), (.src, b), (.src, c)]
  | .not a b => [(.dst, a), (.src, b)]
  | .rmem a b => [(.dst, a), (.src, b)]
  | .wmem a b => [(.src, a), (.src, b)]
  | .call a => [(.src, a)]
  | .ret => []
  | .out a => [(.src, a)]
  | .inp a => [(.dst, a)]
  | .noop => []

/-- The operand count `n` of an instruction; its length in cells is `n + 1` (R70). -/
def Instr.operandCount (i : Instr) : Nat := i.operands.length

/-- Every operand is legal in its position. -/
def Instr.wellFormed (i : Instr) : Bool := i.operands.all fun p => p.2.legal p.1

end Sys2Proof
end

