-- ==== Sys2Proof/Decode.lean ====
section
/-! DEFINITION. The decoder, from a run of memory cells to an instruction, and the encoder
(30_encoding.md rules R70 to R80). Opcode numbers are those of rule R76; those other than 0 and 19 are
the spec's decision D1 (log entry 14). -/

namespace Sys2Proof

/-- The register of index `n`, for `n` below 8 (R98). -/
def regIxOf (n : Nat) : RegIx := Fin.ofNat 8 n

/-- The place of an invalid cell value, `n` above 32775, for `n` below 32760. -/
def invalidIxOf (n : Nat) : Fin 32760 := Fin.ofNat 32760 n

/-- What an operand cell says (R73): [0, 32767] a literal, [32768, 32775] a register, the rest
invalid. -/
def Operand.ofCell (o : Cell) : Operand :=
  if o.toNat < 32768 then .lit (o.setWidth 15)
  else if o.toNat < 32776 then .reg (regIxOf (o.toNat - 32768))
  else .invalid (invalidIxOf (o.toNat - 32776))

/-- The operand cell that says it (R73). -/
def Operand.toCell : Operand → Cell
  | .lit v => v.setWidth 16
  | .reg r => BitVec.ofNat 16 (32768 + r.val)
  | .invalid k => BitVec.ofNat 16 (32776 + k.val)

/-- Why a run of cells is not a whole instruction. -/
inductive DecodeError where
  /-- There is no cell at all: the opcode address lies beyond memory (R91). -/
  | noOpcode
  /-- The opcode cell is in [22, 65535] (R78). -/
  | illegalOpcode (op : Cell)
  /-- The opcode is legal and an operand cell lies beyond memory (R92). -/
  | missingOperand (op : Cell)
  deriving DecidableEq, Repr

/-- What a legal opcode still needs: its operand cells, by number (column `n` of R76). -/
inductive Shape where
  | zero (i : Instr)
  | one (f : Operand → Instr)
  | two (f : Operand → Operand → Instr)
  | three (f : Operand → Operand → Operand → Instr)

/-- The operand count of a shape. -/
def Shape.count : Shape → Nat
  | .zero _ => 0
  | .one _ => 1
  | .two _ => 2
  | .three _ => 3

/-- The opcode map, row for row (R76); the whole cell is the opcode (R72), and a value above 21 is no
opcode (R78). -/
def opcodeMap : Nat → Option Shape
  | 0 => some (.zero .halt)
  | 1 => some (.two .set)
  | 2 => some (.one .push)
  | 3 => some (.one .pop)
  | 4 => some (.three .eq)
  | 5 => some (.three .gt)
  | 6 => some (.one .jmp)
  | 7 => some (.two .jt)
  | 8 => some (.two .jf)
  | 9 => some (.three .add)
  | 10 => some (.three .mult)
  | 11 => some (.three .mod)
  | 12 => some (.three .and)
  | 13 => some (.three .or)
  | 14 => some (.two .not)
  | 15 => some (.two .rmem)
  | 16 => some (.two .wmem)
  | 17 => some (.one .call)
  | 18 => some (.zero .ret)
  | 19 => some (.one .out)
  | 20 => some (.one .inp)
  | 21 => some (.zero .noop)
  | _ => none

/-- Take the operand cells a shape needs, in address order, and answer the instruction with the cells
that follow it; `op` is the opcode cell, for the error. -/
def takeOperands (op : Cell) : Shape → List Cell → Except DecodeError (Instr × List Cell)
  | .zero i, r => .ok (i, r)
  | .one f, a :: r => .ok (f (.ofCell a), r)
  | .two f, a :: b :: r => .ok (f (.ofCell a) (.ofCell b), r)
  | .three f, a :: b :: c :: r => .ok (f (.ofCell a) (.ofCell b) (.ofCell c), r)
  | _, _ => .error (.missingOperand op)

/-- Read one instruction from the front of a run of cells (R75): total, and every run that is no
instruction is rejected by name. -/
def decode : List Cell → Except DecodeError (Instr × List Cell)
  | [] => .error .noOpcode
  | op :: r =>
    match opcodeMap op.toNat with
    | none => .error (.illegalOpcode op)
    | some sh => takeOperands op sh r

/-- The opcode of an instruction (R76). -/
def Instr.opcode : Instr → Cell
  | .halt => 0
  | .set _ _ => 1
  | .push _ => 2
  | .pop _ => 3
  | .eq _ _ _ => 4
  | .gt _ _ _ => 5
  | .jmp _ => 6
  | .jt _ _ => 7
  | .jf _ _ => 8
  | .add _ _ _ => 9
  | .mult _ _ _ => 10
  | .mod _ _ _ => 11
  | .and _ _ _ => 12
  | .or _ _ _ => 13
  | .not _ _ => 14
  | .rmem _ _ => 15
  | .wmem _ _ => 16
  | .call _ => 17
  | .ret => 18
  | .out _ => 19
  | .inp _ => 20
  | .noop => 21

/-- The cells of an instruction: the opcode cell and the operand cells in order (R70). -/
def encode (i : Instr) : List Cell := i.opcode :: i.operands.map fun p => p.2.toCell

/-- The four cells of an instruction given as a number: cell `k` is bits `16k+15` to `16k`, and every bit
from `nbits` up is 0 (opcode_table.json numbers bit 0 as the least significant bit of the first cell;
log entry 8). -/
def tableCells (nbits w : Nat) : List Cell :=
  [0, 16, 32, 48].map fun k => BitVec.ofNat 16 ((w % 2 ^ nbits) >>> k)

/-- The instruction the decoder reads from an instruction whose bits are `w`; none where it refuses. -/
def decodeTableWord (nbits w : Nat) : Option Instr :=
  match decode (tableCells nbits w) with
  | .ok (i, _) => some i
  | .error _ => none

end Sys2Proof
end

