-- ==== Sys2Proof/Machine/Fetch.lean ====
section
/-! DEFINITION. Phases 1 and 2 of the step: fetching the opcode cell and the operand cells, and decoding
them (40_step_and_operands.md rules R91, R92). -/

namespace Sys2Proof.Machine

/-- The `n` cells from address `k` on, as many of them as lie below `MEMLEN`. -/
def State.cellsFrom (s : State) (k : Nat) : Nat → List Cell
  | 0 => []
  | n + 1 => if k < s.memLen.val then s.cell k :: State.cellsFrom s (k + 1) n else []

/-- The instruction at the pc: it has at most four cells (R70), and none of them lies at or beyond
`MEMLEN`. -/
def fetch (s : State) : Except DecodeError Instr :=
  match decode (s.cellsFrom s.pc.toNat 4) with
  | .ok (i, _) => .ok i
  | .error e => .error e

/-- The fault of a fetch that gives no instruction: the opcode address is beyond memory (R91, `FOPV` is
0), the opcode is illegal (R92), or an operand cell is beyond memory (R92, `FOPV` is 1). -/
def fetchFault (s : State) : DecodeError → StepOutcome
  | .noOpcode => .next (s.takeFault .addressOutOfBounds false)
  | .illegalOpcode _ => raiseFault s .illegalOpcode
  | .missingOperand _ => raiseFault s .addressOutOfBounds

/-- The state with the cells of one instruction loaded where the next fetch reads: for `withFetchWord`
(log entry 8). The pc stays where four cells fit there and goes to 0 where they do not; `MEMLEN` grows
so that the four cells exist; the core runs, with its fault record clear, as a running core's is (R31). -/
def loadAtFetch (s : State) (cells : List Cell) : State :=
  let p : Pc := if s.pc.toNat + 4 ≤ Config.maxMemLen then s.pc else 0
  { s with
    pc := p
    mem := s.mem.storeList p.toNat cells
    memLen := memLenOf (max s.memLen.val (p.toNat + 4))
    status := .running
    fkind := .noFault
    faddr := 0
    fop := 0
    fopv := false }

end Sys2Proof.Machine
end

