-- ==== Sys2Proof/Machine/Step.lean ====
section
/-! DEFINITION. One step of the machine (40_step_and_operands.md rules R90, R101, R102). -/

namespace Sys2Proof.Machine

/-- One step: a running core fetches, decodes and executes one instruction (R90, R102); a halted core
does nothing (R101). -/
def step (s : State) : Host.Outcome State Fault Refusal :=
  match s.status with
  | .running =>
    match fetch s with
    | .ok i => exec i s
    | .error e => fetchFault s e
  | .haltedNormal => idle s
  | .haltedFault => idle s

/-- The state with the instruction whose bits are `w` loaded where the next step fetches (log entry 8):
it stands for the host's load of an image (70_reset_and_hazards.md rule R203). -/
def State.withFetchWord (s : State) (nbits w : Nat) : State :=
  loadAtFetch s (tableCells nbits w)

end Sys2Proof.Machine
end

