-- ==== Sys2Proof/Machine/Assembly.lean ====
section
/-! DEFINITION. The text form of programs (30_encoding.md rules R82 to R86): assembler, disassembler, and
the fault text a host can render (60_exceptions.md rule R177). The hardware holds none of this
(00_scope.md rule R4); the spec keeps it as part of its contract. What the rules do not describe
(91_not_in_source.md N15) is the model's choice, DESIGN CHOICE, log entry 11: a line ends at a line feed and at
nothing else, and blank lines, leading, trailing or several spaces, tabs, upper case, leading zeros and a final
line feed are refused; so is a literal in a destination position, as 93_implementation_defined.md U27 rules. -/

namespace Sys2Proof.Machine

/-- Text as characters: the code points of the UTF-8 text of R82 (DESIGN CHOICE, log entry 11). -/
abbrev Text := List Char

/-! ### Words and lines -/

/-- The pieces of a text between the separators. -/
def splitText (sep : Char) : Text → List Text
  | [] => [[]]
  | c :: t =>
    if c = sep then [] :: splitText sep t
    else
      match splitText sep t with
      | [] => [[c]]
      | w :: ws => (c :: w) :: ws

/-- The pieces with one separator between each two. -/
def joinText (sep : Char) : List Text → Text
  | [] => []
  | [w] => w
  | w :: v :: ws => w ++ sep :: joinText sep (v :: ws)

/-! ### Mnemonics -/

/-- The mnemonics, in the order of the opcodes (R76). -/
def mnemonics : List Text :=
  [['h', 'a', 'l', 't'], ['s', 'e', 't'], ['p', 'u', 's', 'h'], ['p', 'o', 'p'], ['e', 'q'], ['g', 't'],
    ['j', 'm', 'p'], ['j', 't'], ['j', 'f'], ['a', 'd', 'd'], ['m', 'u', 'l', 't']] ++
  [['m', 'o', 'd'], ['a', 'n', 'd'], ['o', 'r'], ['n', 'o', 't'], ['r', 'm', 'e', 'm'], ['w', 'm', 'e', 'm'],
    ['c', 'a', 'l', 'l'], ['r', 'e', 't'], ['o', 'u', 't'], ['i', 'n'], ['n', 'o', 'o', 'p']]

/-- The opcode of a mnemonic. -/
def opcodeOfText (t : Text) : Option Nat := mnemonics.findIdx? (· == t)

/-! ### Operand tokens -/

/-- The decimal digits of `n`, at most `fuel` of them, most significant first. -/
def decimal : Nat → Nat → Text
  | 0, _ => []
  | fuel + 1, n =>
    if n < 10 then [Char.ofNat (48 + n)] else decimal fuel (n / 10) ++ [Char.ofNat (48 + n % 10)]

/-- The number whose decimal digits follow those of `acc`; none at a character that is no digit. -/
def readDigits : Nat → Text → Option Nat
  | acc, [] => some acc
  | acc, c :: t =>
    if 48 ≤ c.toNat ∧ c.toNat ≤ 57 then readDigits (acc * 10 + (c.toNat - 48)) t else none

/-- Why a line is rejected (R84). -/
inductive SyntaxReason where
  /-- A malformed line: no such mnemonic, or a token that is neither a number nor a register letter. -/
  | malformed
  /-- The operand count is not the opcode's. -/
  | operandCount (expected actual : Nat)
  /-- A literal above 32767. -/
  | literalOutOfRange
  /-- A literal in a destination position: no error of R84, but refused in a model of the text form
  (93_implementation_defined.md U27; log entry 11). -/
  | literalDestination
  deriving DecidableEq, Repr

/-- A decimal literal token in [0, 32767] (R83). R84 names two reasons without saying which tokens get which:
literalOutOfRange is for a number above 32767 written in digits only, and a token with a sign, such as -1 or +5,
or with a leading zero is malformed (DESIGN CHOICE, log entry 11). -/
def readLiteral (t : Text) : Except SyntaxReason Operand :=
  match t with
  | [] => .error .malformed
  | c :: r =>
    if c = '0' ∧ r ≠ [] then .error .malformed
    else
      match readDigits 0 (c :: r) with
      | none => .error .malformed
      | some n => if n ≤ 32767 then .ok (.lit (BitVec.ofNat 15 n)) else .error .literalOutOfRange

/-- An operand token: a letter `a` to `h`, or a decimal literal (R83). -/
def readOperand (t : Text) : Except SyntaxReason Operand :=
  match t with
  | [c] => if 97 ≤ c.toNat ∧ c.toNat ≤ 104 then .ok (.reg (regIxOf (c.toNat - 97))) else readLiteral t
  | _ => readLiteral t

/-- The token of an operand; none for an invalid cell, which has none (R83, U28). -/
def operandText : Operand → Option Text
  | .lit v => some (decimal 5 v.toNat)
  | .reg r => some [Char.ofNat (97 + r.val)]
  | .invalid _ => none

/-! ### The assembler -/

/-- The cells of a list of operand tokens. -/
def assembleOperands : List Text → Except SyntaxReason (List Cell)
  | [] => .ok []
  | t :: ts =>
    match readOperand t with
    | .error e => .error e
    | .ok o =>
      match assembleOperands ts with
      | .error e => .error e
      | .ok cs => .ok (o.toCell :: cs)

/-- The cells of an opcode with its operand cells, refused when an operand is not legal in its position. The
operand cells of tokens are never invalid (R83), so that is a literal in a destination position (U27; log
entry 11). -/
def checkRoles (cells : List Cell) : Except SyntaxReason (List Cell) :=
  match decode cells with
  | .error _ => .error .malformed
  | .ok (i, _) => if i.wellFormed then .ok cells else .error .literalDestination

/-- The cells of one line (R82 to R84; U27). Exactly one space stands before each operand: a leading, trailing
or second space makes an empty word and a tab is part of a word, so such lines are refused (DESIGN CHOICE, log
entry 11). The operand count is checked before the operands, and their roles last. -/
def assembleLine (line : Text) : Except SyntaxReason (List Cell) :=
  match splitText ' ' line with
  | [] => .error .malformed
  | m :: toks =>
    match opcodeOfText m with
    | none => .error .malformed
    | some n =>
      match opcodeMap n with
      | none => .error .malformed
      | some sh =>
        if toks.length = sh.count then
          match assembleOperands toks with
          | .error e => .error e
          | .ok cs => checkRoles (BitVec.ofNat 16 n :: cs)
        else .error (.operandCount sh.count toks.length)

/-- A rejected source: the offending line and the reason (R84). That lines are counted from 1 is the model's
choice (DESIGN CHOICE, log entry 11). -/
structure SyntaxError where
  line : Nat
  reason : SyntaxReason
  deriving DecidableEq, Repr

/-- The cells of the lines in order; the first bad line rejects the whole source (R84). `n` is the number
of the first line. -/
def assembleLines : Nat → List Text → Except SyntaxError (List Cell)
  | _, [] => .ok []
  | n, l :: ls =>
    match assembleLine l with
    | .error e => .error ⟨n, e⟩
    | .ok cs =>
      match assembleLines (n + 1) ls with
      | .error e => .error e
      | .ok rest => .ok (cs ++ rest)

/-- Assemble a source text (R82 to R85). A line ends at a line feed only, so text with carriage returns is
refused, and so are an empty line and a line feed after the last line (DESIGN CHOICE, log entry 11). -/
def assemble (src : Text) : Except SyntaxError (List Cell) := assembleLines 1 (splitText '\n' src)

/-! ### The disassembler -/

/-- The tokens of a list of operands. -/
def operandTexts : List Operand → Option (List Text)
  | [] => some []
  | o :: os =>
    match operandText o, operandTexts os with
    | some t, some ts => some (t :: ts)
    | _, _ => none

/-- One line for one instruction (R86). -/
def instrText (i : Instr) : Option Text :=
  match mnemonics[i.opcode.toNat]?, operandTexts (i.operands.map (·.2)) with
  | some m, some ts => some (joinText ' ' (m :: ts))
  | _, _ => none

/-- The lines of a run of cells, at most `fuel` of them (R86). A run that cannot be rendered to its end has no
lines at all: one with a cell that is no opcode or an operand without text (U28), and one that ends in the middle
of an instruction, on which the spec is silent (DESIGN CHOICE, log entry 11). -/
def disassembleLines : Nat → List Cell → Option (List Text)
  | _, [] => some []
  | 0, _ :: _ => none
  | fuel + 1, c :: cs =>
    match decode (c :: cs) with
    | .error _ => none
    | .ok (i, rest) =>
      match instrText i, disassembleLines fuel rest with
      | some l, some ls => some (l :: ls)
      | _, _ => none

/-- Disassemble a memory image (R86); none where a cell is no opcode or an operand has no text (U28), or where the
image ends in the middle of an instruction (DESIGN CHOICE, log entry 11). The lines
are joined by line feeds, with none after the last (DESIGN CHOICE, log entry 11). A literal in a destination
position is rendered like any other: the image can hold one (R86), and it is what R177 shows after its fault. -/
def disassemble (cells : List Cell) : Option Text :=
  match disassembleLines cells.length cells with
  | none => none
  | some ls => some (joinText '\n' ls)

/-- The decoded text of a faulted instruction, where feasible (R177). -/
def faultText (s : State) : Option Text :=
  if s.status = .haltedFault ∧ s.fopv = true then
    match decode (s.cellsFrom s.faddr.toNat 4) with
    | .error _ => none
    | .ok (i, _) => instrText i
  else none

end Sys2Proof.Machine
end

