-- ==== Sys2Proof/Machine/HostPort.lean ====
section
/-! DEFINITION. What the host does at the core's interfaces, outside the step: loading an image
(20_memory.md rule R53), reset and boot (70_reset_and_hazards.md rules R200 to R203), supplying
characters (10_state.md rule R35), reading the status port (rule R38). -/

namespace Sys2Proof.Machine

/-! ### Loading -/

/-- The words of a byte image, `B[2k] + 256 * B[2k+1]`; none when the byte length is odd (R53). -/
def wordsOfBytes : List (BitVec 8) → Option (List Cell)
  | [] => some []
  | [_] => none
  | lo :: hi :: t => (wordsOfBytes t).map fun ws => BitVec.ofNat 16 (lo.toNat + 256 * hi.toNat) :: ws

/-- Load a sequence of words, element `k` into `M[k]`, which also fixes `MEMLEN` (R53); none, the load is
refused, when there are more than 32768 (decision D3). Nothing but the memory changes. -/
def loadWords (img : List Cell) (s : State) : Option State :=
  if img.length ≤ Config.maxMemLen then
    some { s with
      mem := Memory.storeList [] 0 img
      memLen := memLenOf img.length }
  else none

/-- Load a byte image (R53); none when it is no valid image. -/
def loadImage (bytes : List (BitVec 8)) (s : State) : Option State :=
  match wordsOfBytes bytes with
  | none => none
  | some ws => loadWords ws s

/-! ### Reset -/

/-- Reset at an instruction boundary (R200, R202; also the external abort, 60_exceptions.md R187):
registers, pc, stack, status and fault record take their reset values; memory keeps its contents (R201),
and the characters consumed and sent stay so (R202). -/
def assertReset (s : State) : State :=
  { State.reset with
    mem := s.mem
    memLen := s.memLen
    stackDepth := s.stackDepth
    input := s.input
    output := s.output }

/-! ### Characters -/

/-- The source makes more characters available, after those already waiting (R35). -/
def deliver (cs : List Word) (s : State) : State := s.setInput (s.input ++ cs)

/-- Boot (R203): load the image while the core is held in reset, attach the input source, release
reset. -/
def boot (bytes : List (BitVec 8)) (chars : List Word) : Option State :=
  match loadImage bytes State.reset with
  | none => none
  | some s => some (assertReset (s.setInput chars))

/-! ### The status port -/

/-- The number of a run status (R30). -/
def RunStatus.code : RunStatus → BitVec 2
  | .running => 0
  | .haltedNormal => 1
  | .haltedFault => 2

/-- The number of a fault kind (R31). -/
def FaultKind.code : FaultKind → BitVec 3
  | .noFault => 0
  | .outOfRangeValue => 1
  | .invalidRegister => 2
  | .addressOutOfBounds => 3
  | .stackUnderflow => 4
  | .illegalOpcode => 5
  | .stuckPC => 6
  | .stackOverflow => 7

/-- The outputs of the status port (R38). -/
structure StatusPort where
  status : BitVec 2
  fkind : BitVec 3
  faddr : BitVec 16
  fop : BitVec 16
  fopv : BitVec 1
  deriving DecidableEq, Repr

/-- Read the status port; possible at any time, and it changes nothing (R38). -/
def readStatus (s : State) : StatusPort where
  status := s.status.code
  fkind := s.fkind.code
  faddr := s.faddr
  fop := s.fop
  fopv := BitVec.ofBool s.fopv

end Sys2Proof.Machine
end

