-- ==== Sys2Proof/Safety.lean ====
section
/-! DEFINITION. What counts as a safe run, in the terms the statements use: the invariant of the machine,
the ways a run stands, and the fault matrix of 60_exceptions.md written over raw cells, beside the model
and not from it. -/

namespace Sys2Proof.Machine

/-! ### How a run stands (40_step_and_operands.md rule R104) -/

/-- The run ended normally, the only successful final state. -/
def State.endedNormally (s : State) : Prop := s.status = .haltedNormal

/-- The run ended by a fault. -/
def State.endedByFault (s : State) : Prop := s.status = .haltedFault

/-- The core runs, its next instruction is `in` with a register destination, and no character is there
(R100): neither final nor faulted. -/
def State.waiting (s : State) : Prop :=
  s.status = .running ∧ s.input = [] ∧ ∃ r, fetch s = .ok (.inp (.reg r))

/-! ### The invariant -/

/-- What holds in every state a run can reach. -/
structure State.Inv (s : State) : Prop where
  /-- The memory list is in canonical form. -/
  memCanonical : s.mem.wf = true
  /-- It lists no cell at or beyond `MEMLEN` (R50). -/
  memInside : s.mem.below s.memLen.val = true
  /-- The pc never passes 32768, so it never wraps (R25). -/
  pcBound : s.pc.toNat ≤ 32768
  /-- A finite stack is never overfull (R185). -/
  stackBound : ∀ d, s.stackDepth = some d → s.stack.length ≤ d
  /-- The fault record is 0 unless the run ended by a fault (R31, R32). -/
  noRecord : s.status ≠ .haltedFault → s.fkind = .noFault ∧ s.faddr = 0 ∧ s.fop = 0 ∧ s.fopv = false
  /-- A recorded fault has a kind, its address is the pc (R176), and `FOP` is the opcode cell that is
  still there, unless the fault was the opcode fetch itself (R32). -/
  record : s.status = .haltedFault → s.fkind ≠ .noFault ∧ s.faddr = s.pc ∧
    (s.fopv = true → s.pc.toNat < s.memLen.val ∧ s.fop = s.cell s.pc.toNat) ∧
    (s.fopv = false → s.memLen.val ≤ s.pc.toNat ∧ s.fop = 0 ∧ s.fkind = .addressOutOfBounds)
  /-- Code 7 is never produced when the stack is unbounded (R185). -/
  overflowOnlyFinite : s.fkind = .stackOverflow → s.stackDepth ≠ none

/-! ### The fault matrix (60_exceptions.md rules R170, R181, R182), on raw cell values -/

/-- The roles of an opcode's operands (the format table of 30_encoding.md R71); none for a value that is
no opcode. -/
def matrixRoles (op : Nat) : Option (List Role) :=
  if op ∈ [0, 18, 21] then some []
  else if op ∈ [2, 6, 17, 19] then some [.src]
  else if op ∈ [3, 20] then some [.dst]
  else if op ∈ [1, 14, 15] then some [.dst, .src]
  else if op ∈ [7, 8, 16] then some [.src, .src]
  else if op ∈ [4, 5, 9, 10, 11, 12, 13] then some [.dst, .src, .src]
  else none

/-- The first illegal operand among the cells from address `k` on (phase 3 of R102). -/
def matrixOperands (s : State) : Nat → List Role → Option FaultKind
  | _, [] => none
  | k, .dst :: rs =>
    if (s.cell k).toNat < 32768 ∨ (s.cell k).toNat > 32775 then some .invalidRegister
    else matrixOperands s (k + 1) rs
  | k, .src :: rs =>
    if (s.cell k).toNat > 32775 then some .outOfRangeValue else matrixOperands s (k + 1) rs

/-- The value of a legal source cell `o` (R97). -/
def matrixValue (s : State) (o : Nat) : Nat :=
  if o ≤ 32767 then o else (s.readReg (regIxOf (o - 32768))).toNat

/-- Whether a finite stack is full (R185). -/
def stackFull (s : State) : Bool :=
  match s.stackDepth with
  | none => false
  | some d => decide (d ≤ s.stack.length)

/-- The execute-phase fault of opcode `op` with operand cells `a`, `b`, `c` (column "phase 4" of R182). -/
def matrixExecute (s : State) (op a b c : Nat) : Option FaultKind :=
  if op = 2 then (if stackFull s then some .stackOverflow else none)
  else if op = 3 then (if s.stack = [] then some .stackUnderflow else none)
  else if op = 11 then (if matrixValue s c = 0 then some .outOfRangeValue else none)
  else if op = 15 then
    (if s.memLen.val ≤ matrixValue s b then some .addressOutOfBounds
      else if (s.cell (matrixValue s b)).toNat > 32767 then some .outOfRangeValue else none)
  else if op = 16 then (if s.memLen.val ≤ matrixValue s a then some .addressOutOfBounds else none)
  else if op = 17 then
    (if s.pc.toNat + 2 > 32767 then some .outOfRangeValue
      else if stackFull s then some .stackOverflow else none)
  else none

/-- The stuck check (column "phase 5" of R182): a transfer to the instruction's own address (R96). -/
def matrixStuck (s : State) (op a b : Nat) : Option FaultKind :=
  if op = 6 ∧ matrixValue s a = s.pc.toNat then some .stuckPC
  else if op = 7 ∧ matrixValue s a ≠ 0 ∧ matrixValue s b = s.pc.toNat then some .stuckPC
  else if op = 8 ∧ matrixValue s a = 0 ∧ matrixValue s b = s.pc.toNat then some .stuckPC
  else if op = 17 ∧ matrixValue s a = s.pc.toNat then some .stuckPC
  else if op = 18 ∧ s.stack.head?.map BitVec.toNat = some s.pc.toNat then some .stuckPC
  else none

/-- The fault of a running core's next step, with its `FOPV`: the first in the priority order of R181;
none when the step raises no fault. -/
def matrixFault (s : State) : Option (FaultKind × Bool) :=
  let p := s.pc.toNat
  if s.memLen.val ≤ p then some (.addressOutOfBounds, false)
  else
    let op := (s.cell p).toNat
    match matrixRoles op with
    | none => some (.illegalOpcode, true)
    | some rs =>
      if s.memLen.val ≤ p + rs.length then some (.addressOutOfBounds, true)
      else
        let a := (s.cell (p + 1)).toNat
        let b := (s.cell (p + 2)).toNat
        let c := (s.cell (p + 3)).toNat
        ((matrixOperands s (p + 1) rs).or ((matrixExecute s op a b c).or (matrixStuck s op a b))).map
          fun k => (k, true)

end Sys2Proof.Machine
end

