-- ==== Sys2Proof/Certificates/Slice0/Obligations.lean ====
section
/-! DEFINITION. The statements for the provers: `def Obligations.<Name> : Prop`, each listed in
OBLIGATIONS.json, after the abbreviations they share. -/

namespace Sys2Proof.Machine.Claims

/-- Executing `i` takes the fault `k`: the fault record is written with the opcode cell, the run ends, and
every other field keeps its value (60_exceptions.md R176). -/
def Raises (i : Instr) (s : State) (k : FaultKind) : Prop :=
  exec i s = .next { s with
    status := .haltedFault, fkind := k, faddr := s.pc, fop := s.cell s.pc.toNat, fopv := true }

/-- The step takes `AddressOutOfBounds` with `FOPV` `v` (R57, R176): the fault of a fetch that leaves
memory. -/
def FetchRaises (s : State) (v : Bool) : Prop :=
  step s = .next { s with
    status := .haltedFault, fkind := .addressOutOfBounds, faddr := s.pc,
    fop := if v then s.cell s.pc.toNat else 0, fopv := v }

/-! ### The formats (30_encoding.md R71): encoding, fetch, operand validation

The opcode numbers are those of R76; all but 0 and 19 are the spec's decision D1, and the order of the checks
is its decision D6 (log entry 14). -/

/-- Fetching opcode `n` and its `k` operand cells (40_step_and_operands.md R91, R92): with the opcode cell
beyond memory there is no opcode to record, with an operand cell beyond memory there is. -/
def FetchFaults (n : Cell) (k : Nat) : Prop :=
  ∀ s : State, s.status = .running →
    (s.memLen.val ≤ s.pc.toNat → FetchRaises s false) ∧
    (s.pc.toNat < s.memLen.val → s.cell s.pc.toNat = n → s.memLen.val ≤ s.pc.toNat + k → FetchRaises s true)

/-- Opcode `n` alone decodes to `i`; the only fault is that of the opcode fetch. -/
def EncodedZero (n : Cell) (i : Instr) : Prop :=
  decode [n] = .ok (i, []) ∧
  ∀ s : State, s.status = .running → s.memLen.val ≤ s.pc.toNat → FetchRaises s false

/-- Opcode `n` followed by an operand cell decodes to `mk`; the fetch faults where a cell is missing. -/
def EncodedOne (n : Cell) (mk : Operand → Instr) : Prop :=
  (∀ a : Cell, decode [n, a] = .ok (mk (.ofCell a), [])) ∧ FetchFaults n 1

/-- Opcode `n` followed by two operand cells decodes to `mk`; the fetch faults where a cell is missing. -/
def EncodedTwo (n : Cell) (mk : Operand → Operand → Instr) : Prop :=
  (∀ a b : Cell, decode [n, a, b] = .ok (mk (.ofCell a) (.ofCell b), [])) ∧ FetchFaults n 2

/-- Opcode `n` followed by three operand cells decodes to `mk`; the fetch faults where a cell is missing. -/
def EncodedThree (n : Cell) (mk : Operand → Operand → Operand → Instr) : Prop :=
  (∀ a b c : Cell, decode [n, a, b, c] = .ok (mk (.ofCell a) (.ofCell b) (.ofCell c), [])) ∧ FetchFaults n 3

/-- Format `S`: an invalid source raises `OutOfRangeValue`. -/
def ValidatesS (mk : Operand → Instr) : Prop :=
  ∀ s k, Raises (mk (.invalid k)) s .outOfRangeValue

/-- Format `D`: anything but a register raises `InvalidRegister`. -/
def ValidatesD (mk : Operand → Instr) : Prop :=
  ∀ s a, (∀ r, a ≠ .reg r) → Raises (mk a) s .invalidRegister

/-- Format `DS`: the destination is checked first, then the source. -/
def ValidatesDS (mk : Operand → Operand → Instr) : Prop :=
  ∀ s, (∀ a b, (∀ r, a ≠ .reg r) → Raises (mk a b) s .invalidRegister) ∧
    (∀ r k, Raises (mk (.reg r) (.invalid k)) s .outOfRangeValue)

/-- Format `SS`: either source invalid raises `OutOfRangeValue`. -/
def ValidatesSS (mk : Operand → Operand → Instr) : Prop :=
  ∀ s k a, Raises (mk (.invalid k) a) s .outOfRangeValue ∧ Raises (mk a (.invalid k)) s .outOfRangeValue

/-- Format `DSS`: the destination is checked first, then the sources. -/
def ValidatesDSS (mk : Operand → Operand → Operand → Instr) : Prop :=
  ∀ s, (∀ a b c, (∀ r, a ≠ .reg r) → Raises (mk a b c) s .invalidRegister) ∧
    (∀ r k c, Raises (mk (.reg r) (.invalid k) c) s .outOfRangeValue ∧
      Raises (mk (.reg r) c (.invalid k)) s .outOfRangeValue)

/-! ### Results of the register-only formats: the whole next state -/

/-- Format `DS`, with a legal source of value `u`, writes `f u` to the destination, adds 3 to the pc and
changes nothing else. -/
def WritesDS (mk : Operand → Operand → Instr) (f : Word → Word) : Prop :=
  ∀ s r b u, resolve s b = .ok u →
    exec (mk (.reg r) b) s = .next { s with x := s.x.set r.val (f u) r.isLt, pc := s.pc + 3 }

/-- Format `DSS`, with legal sources of values `u` and `w`, writes `f u w` to the destination, adds 4 to the
pc and changes nothing else. -/
def WritesDSS (mk : Operand → Operand → Operand → Instr) (f : Word → Word → Word) : Prop :=
  ∀ s r b c u w, resolve s b = .ok u → resolve s c = .ok w →
    exec (mk (.reg r) b c) s = .next { s with x := s.x.set r.val (f u w) r.isLt, pc := s.pc + 4 }

/-- A finite stack is exactly full (R185). -/
def Full (s : State) : Prop := s.stackDepth = some s.stack.length

/-- The stack is unbounded, or finite with room for one more Word. -/
def Room (s : State) : Prop := ∀ d, s.stackDepth = some d → s.stack.length < d

end Sys2Proof.Machine.Claims

open Sys2Proof Sys2Proof.Machine Sys2Proof.Machine.Claims

/-! ## Encoding -/

/-- Decoding the encoding of any instruction, whatever cells follow it, gives that instruction and those
cells: no bit of any operand is dropped (30_encoding.md R70 to R76). -/
def Obligations.DecodeOfEncodeIsIdentity : Prop :=
  ∀ (i : Instr) (rest : List Cell), decode (encode i ++ rest) = .ok (i, rest)

/-- Whatever decodes was the encoding of the instruction it decodes to, followed by the cells left over:
every encoding has one meaning and no two runs of cells share it (R75). -/
def Obligations.DecodedCellsAreTheEncoding : Prop :=
  ∀ (cs rest : List Cell) (i : Instr), decode cs = .ok (i, rest) → cs = encode i ++ rest

/-- A run of cells fails to decode exactly when it is empty, its opcode cell is above 21 (R78), or its
opcode is legal and operand cells are missing (R75, R92). -/
def Obligations.DecodeRejectsByName : Prop :=
  ∀ cs : List Cell,
    (decode cs = .error .noOpcode ↔ cs = []) ∧
    (∀ op, decode cs = .error (.illegalOpcode op) ↔ ∃ r, cs = op :: r ∧ 21 < op.toNat) ∧
    (∀ op, decode cs = .error (.missingOperand op) ↔
      ∃ r roles, cs = op :: r ∧ matrixRoles op.toNat = some roles ∧ r.length < roles.length)

/-- Words written out from the encoding table, one or more of each format, decode to their instructions
(R71, R76). -/
def Obligations.WrittenOutWordsDecode : Prop :=
  decode [0] = .ok (.halt, []) ∧
  decode [18] = .ok (.ret, []) ∧
  decode [21] = .ok (.noop, []) ∧
  decode [19, 65] = .ok (.out (.lit 65), []) ∧
  decode [17, 32775] = .ok (.call (.reg 7), []) ∧
  decode [20, 32768] = .ok (.inp (.reg 0), []) ∧
  decode [14, 32772, 0] = .ok (.not (.reg 4) (.lit 0), []) ∧
  decode [16, 13, 32768] = .ok (.wmem (.lit 13) (.reg 0), []) ∧
  decode [9, 32769, 32769, 32768] = .ok (.add (.reg 1) (.reg 1) (.reg 0), []) ∧
  decode [2, 32776] = .ok (.push (.invalid 0), [])

/-- `resolve` of a source cell: a literal is itself, a register cell reads that register, any other cell
raises `OutOfRangeValue` (R73, R97). -/
def Obligations.ResolveReadsLiteralOrRegister : Prop :=
  ∀ (s : State) (o : Cell),
    (o.toNat ≤ 32767 → resolve s (.ofCell o) = .ok (BitVec.ofNat 15 o.toNat)) ∧
    (∀ r : RegIx, o.toNat = 32768 + r.val → resolve s (.ofCell o) = .ok s.x[r]) ∧
    (32775 < o.toNat → resolve s (.ofCell o) = .error .outOfRangeValue)

/-- A destination cell names register `o - 32768` when it is in [32768, 32775]; any other cell, a literal as
much as an invalid one, raises `InvalidRegister` (R74). -/
def Obligations.DestinationMustBeARegister : Prop :=
  ∀ o : Cell,
    (∀ r : RegIx, o.toNat = 32768 + r.val → regix (.ofCell o) = .ok r) ∧
    (o.toNat < 32768 ∨ 32775 < o.toNat → regix (.ofCell o) = .error .invalidRegister)

/-! ## The instructions, each rule whole: encoding, operand faults, effect with every other field
unchanged, execute-phase faults -/

/-- `set` (41_data_movement.md R110). The destination is checked before the source, 40_step_and_operands.md R93,
the spec's decision D6 (log entry 14). -/
def Obligations.SetCopiesValue : Prop :=
  EncodedTwo 1 .set ∧ ValidatesDS .set ∧ WritesDS .set fun v => v

/-- `push` (R111): with room the value goes on top; a full finite stack raises `StackOverflow` (the spec's
decision D5, log entries 6 and 14). -/
def Obligations.PushPutsValueOnTop : Prop :=
  EncodedOne 2 .push ∧ ValidatesS .push ∧
  ∀ s a v, resolve s a = .ok v →
    (Room s → exec (.push a) s = .next { s with stack := v :: s.stack, pc := s.pc + 2 }) ∧
    (Full s → Raises (.push a) s .stackOverflow)

/-- `pop` (R112): the top goes to the register; an empty stack raises `StackUnderflow`, after the
destination has been checked (the spec's decision D6, log entry 14). -/
def Obligations.PopTakesTopOrUnderflows : Prop :=
  EncodedOne 3 .pop ∧ ValidatesD .pop ∧
  ∀ s r,
    (∀ v st, s.stack = v :: st →
      exec (.pop (.reg r)) s =
        .next { s with x := s.x.set r.val v r.isLt, stack := st, pc := s.pc + 2 }) ∧
    (s.stack = [] → Raises (.pop (.reg r)) s .stackUnderflow)

/-- `eq` (42_compare.md R120). The destination is checked before the sources, 40_step_and_operands.md
R93, the spec's decision D6 (log entry 14). -/
def Obligations.EqWritesOneOrZero : Prop :=
  EncodedThree 4 .eq ∧ ValidatesDSS .eq ∧ WritesDSS .eq fun u w => if u = w then 1 else 0

/-- `gt` (R121): unsigned. The destination is checked before the sources, 40_step_and_operands.md
R93, the spec's decision D6 (log entry 14). -/
def Obligations.GtComparesUnsigned : Prop :=
  EncodedThree 5 .gt ∧ ValidatesDSS .gt ∧ WritesDSS .gt fun u w => if u.toNat > w.toNat then 1 else 0

/-- `jmp` (43_control_transfer.md R130): to any address but its own, which raises `StuckPC`. -/
def Obligations.JmpGoesToTarget : Prop :=
  EncodedOne 6 .jmp ∧ ValidatesS .jmp ∧
  ∀ s a t, resolve s a = .ok t →
    (t.toNat ≠ s.pc.toNat → exec (.jmp a) s = .next { s with pc := BitVec.ofNat 16 t.toNat }) ∧
    (t.toNat = s.pc.toNat → Raises (.jmp a) s .stuckPC)

/-- `jt` (R131): taken on any value but 0; not taken it falls through, even with its own address as
target. -/
def Obligations.JtJumpsWhenNonZero : Prop :=
  EncodedTwo 7 .jt ∧ ValidatesSS .jt ∧
  ∀ s a b u t, resolve s a = .ok u → resolve s b = .ok t →
    (u.toNat ≠ 0 → t.toNat ≠ s.pc.toNat →
      exec (.jt a b) s = .next { s with pc := BitVec.ofNat 16 t.toNat }) ∧
    (u.toNat ≠ 0 → t.toNat = s.pc.toNat → Raises (.jt a b) s .stuckPC) ∧
    (u.toNat = 0 → exec (.jt a b) s = .next { s with pc := s.pc + 3 })

/-- `jf` (R132): the complement of `jt`. -/
def Obligations.JfJumpsWhenZero : Prop :=
  EncodedTwo 8 .jf ∧ ValidatesSS .jf ∧
  ∀ s a b u t, resolve s a = .ok u → resolve s b = .ok t →
    (u.toNat = 0 → t.toNat ≠ s.pc.toNat →
      exec (.jf a b) s = .next { s with pc := BitVec.ofNat 16 t.toNat }) ∧
    (u.toNat = 0 → t.toNat = s.pc.toNat → Raises (.jf a b) s .stuckPC) ∧
    (u.toNat ≠ 0 → exec (.jf a b) s = .next { s with pc := s.pc + 3 })

/-- `call` (R133): the return address `p + 2` is pushed and the pc goes to the target. The checks come in
the order return address, stack room, own address; a call that raises pushes nothing. A return address that is no Word is the
spec's decision D9, the finite stack its D5, pushing nothing on its own address its D7 (log entry 14). -/
def Obligations.CallPushesReturnAddress : Prop :=
  EncodedOne 17 .call ∧ ValidatesS .call ∧
  ∀ s a t, resolve s a = .ok t →
    (32767 < s.pc.toNat + 2 → Raises (.call a) s .outOfRangeValue) ∧
    (s.pc.toNat + 2 ≤ 32767 → Full s → Raises (.call a) s .stackOverflow) ∧
    (s.pc.toNat + 2 ≤ 32767 → Room s → t.toNat = s.pc.toNat → Raises (.call a) s .stuckPC) ∧
    (s.pc.toNat + 2 ≤ 32767 → Room s → t.toNat ≠ s.pc.toNat →
      exec (.call a) s = .next { s with
        stack := BitVec.ofNat 15 (s.pc.toNat + 2) :: s.stack, pc := BitVec.ofNat 16 t.toNat })

/-- `ret` (R134): to the popped address; an empty stack ends the run normally; its own address raises
`StuckPC` and pops nothing. -/
def Obligations.RetPopsOrHaltsNormally : Prop :=
  EncodedZero 18 .ret ∧
  ∀ s,
    (s.stack = [] → exec .ret s = .next { s with status := .haltedNormal }) ∧
    (∀ t st, s.stack = t :: st → t.toNat ≠ s.pc.toNat →
      exec .ret s = .next { s with stack := st, pc := BitVec.ofNat 16 t.toNat }) ∧
    (∀ t st, s.stack = t :: st → t.toNat = s.pc.toNat → Raises .ret s .stuckPC)

/-- `add` (44_alu.md R140). The destination is checked before the sources, 40_step_and_operands.md
R93, the spec's decision D6 (log entry 14). -/
def Obligations.AddWrapsModulo32768 : Prop :=
  EncodedThree 9 .add ∧ ValidatesDSS .add ∧
    WritesDSS .add fun u w => BitVec.ofNat 15 ((u.toNat + w.toNat) % 32768)

/-- `mult` (R141): the exact product, then the reduction. The destination is checked before the sources, 40_step_and_operands.md
R93, the spec's decision D6 (log entry 14). -/
def Obligations.MultReducesExactProduct : Prop :=
  EncodedThree 10 .mult ∧ ValidatesDSS .mult ∧
    WritesDSS .mult fun u w => BitVec.ofNat 15 ((u.toNat * w.toNat) % 32768)

/-- `mod` (R142): the unsigned remainder, below the divisor; a zero divisor raises `OutOfRangeValue`
(the spec's decision D8, log entry 14). The destination is checked before the sources, 40_step_and_operands.md
R93, the spec's decision D6 (log entry 14). -/
def Obligations.ModIsUnsignedRemainder : Prop :=
  EncodedThree 11 .mod ∧ ValidatesDSS .mod ∧
  ∀ s r b c u w, resolve s b = .ok u → resolve s c = .ok w →
    (w.toNat = 0 → Raises (.mod (.reg r) b c) s .outOfRangeValue) ∧
    (w.toNat ≠ 0 → ∃ v : Word, v.toNat = u.toNat % w.toNat ∧ v.toNat < w.toNat ∧
      exec (.mod (.reg r) b c) s = .next { s with x := s.x.set r.val v r.isLt, pc := s.pc + 4 })

/-- `and` (R143): bit by bit. The destination is checked before the sources, 40_step_and_operands.md
R93, the spec's decision D6 (log entry 14). -/
def Obligations.AndIsBitwise : Prop :=
  EncodedThree 12 .and ∧ ValidatesDSS .and ∧
  ∀ s r b c u w, resolve s b = .ok u → resolve s c = .ok w →
    ∃ v : Word, (∀ i, i < 15 → v.getLsbD i = (u.getLsbD i && w.getLsbD i)) ∧
      exec (.and (.reg r) b c) s = .next { s with x := s.x.set r.val v r.isLt, pc := s.pc + 4 }

/-- `or` (R144): bit by bit. The destination is checked before the sources, 40_step_and_operands.md
R93, the spec's decision D6 (log entry 14). -/
def Obligations.OrIsBitwise : Prop :=
  EncodedThree 13 .or ∧ ValidatesDSS .or ∧
  ∀ s r b c u w, resolve s b = .ok u → resolve s c = .ok w →
    ∃ v : Word, (∀ i, i < 15 → v.getLsbD i = (u.getLsbD i || w.getLsbD i)) ∧
      exec (.or (.reg r) b c) s = .next { s with x := s.x.set r.val v r.isLt, pc := s.pc + 4 }

/-- `not` (R145): exclusive-or with 0x7FFF, that is 32767 less the value. The destination is checked before the source, 40_step_and_operands.md
R93, the spec's decision D6 (log entry 14). -/
def Obligations.NotIsFifteenBitComplement : Prop :=
  EncodedTwo 14 .not ∧ ValidatesDS .not ∧
  ∀ s r b u, resolve s b = .ok u →
    ∃ v : Word, v = u ^^^ 0x7FFF#15 ∧ v.toNat = 32767 - u.toNat ∧
      exec (.not (.reg r) b) s = .next { s with x := s.x.set r.val v r.isLt, pc := s.pc + 3 }

/-- `rmem` (45_memory_access.md R150): the bound is checked first, then the range of the cell, which the spec
marks as derived from R51 and R98. The destination is checked before the source, 40_step_and_operands.md
R93, the spec's decision D6 (log entry 14). -/
def Obligations.RmemLoadsCell : Prop :=
  EncodedTwo 15 .rmem ∧ ValidatesDS .rmem ∧
  ∀ s r b addr, resolve s b = .ok addr →
    (s.memLen.val ≤ addr.toNat → Raises (.rmem (.reg r) b) s .addressOutOfBounds) ∧
    (addr.toNat < s.memLen.val → 32767 < (s.cell addr.toNat).toNat →
      Raises (.rmem (.reg r) b) s .outOfRangeValue) ∧
    (addr.toNat < s.memLen.val → (s.cell addr.toNat).toNat ≤ 32767 →
      exec (.rmem (.reg r) b) s = .next { s with
        x := s.x.set r.val (BitVec.ofNat 15 (s.cell addr.toNat).toNat) r.isLt, pc := s.pc + 3 })

/-- `wmem` (R151): the whole cell becomes the Word, bit 15 zero, every other cell reads as before, and
nothing but memory and pc changes. The memory list is in canonical form, an invariant of the machine. -/
def Obligations.WmemStoresWholeCell : Prop :=
  EncodedTwo 16 .wmem ∧ ValidatesSS .wmem ∧
  ∀ s a b addr v, resolve s a = .ok addr → resolve s b = .ok v →
    (s.memLen.val ≤ addr.toNat → Raises (.wmem a b) s .addressOutOfBounds) ∧
    (addr.toNat < s.memLen.val → s.mem.wf = true →
      ∃ m : Memory, exec (.wmem a b) s = .next { s with mem := m, pc := s.pc + 3 } ∧
        ∀ k, m.cellAt k = if k = addr.toNat then BitVec.ofNat 16 v.toNat else s.cell k)

/-- `halt` (46_system_io.md R160): the status changes, nothing else. -/
def Obligations.HaltEndsNormally : Prop :=
  EncodedZero 0 .halt ∧ ∀ s, exec .halt s = .next { s with status := .haltedNormal }

/-- `noop` (R161): the pc moves, nothing else. -/
def Obligations.NoopOnlyAdvances : Prop :=
  EncodedZero 21 .noop ∧ ∀ s, exec .noop s = .next { s with pc := s.pc + 1 }

/-- `out` (R162): the code is appended to the output. -/
def Obligations.OutSendsOneCharacter : Prop :=
  EncodedOne 19 .out ∧ ValidatesS .out ∧
  ∀ s a c, resolve s a = .ok c →
    exec (.out a) s = .next { s with output := s.output ++ [c], pc := s.pc + 2 }

/-- `in` (R163, R100): the next character goes to the register and is consumed; with none there the
instruction waits with nothing changed, and completes once one arrives. The width of a character and the wait
at the end of input are the spec's decision D11 (log entries 3 and 14). -/
def Obligations.InReceivesOrWaits : Prop :=
  EncodedOne 20 .inp ∧ ValidatesD .inp ∧
  ∀ s r,
    (∀ c cs, s.input = c :: cs →
      exec (.inp (.reg r)) s =
        .next { s with x := s.x.set r.val c r.isLt, input := cs, pc := s.pc + 2 }) ∧
    (s.input = [] → exec (.inp (.reg r)) s = .next s) ∧
    (s.input = [] → ∀ c cs, exec (.inp (.reg r)) (deliver (c :: cs) s) =
        .next { s with x := s.x.set r.val c r.isLt, input := cs, pc := s.pc + 2 })

/-! ## The step -/

/-- When the core runs and the cells from the pc on, as many of the next four as exist, decode to `i`, the
step is `exec` of `i` at that state, with nothing around it (40_step_and_operands.md R90, R102). -/
def Obligations.StepRunsTheDecodedInstruction : Prop :=
  ∀ (s : State) (i : Instr) (rest : List Cell), s.status = .running →
    decode (s.cellsFrom s.pc.toNat 4) = .ok (i, rest) → step s = exec i s

/-- Opcode fetch at or beyond `MEMLEN` (R91): `AddressOutOfBounds` with `FOPV` 0 and `FOP` 0. -/
def Obligations.FetchBeyondMemoryFaults : Prop :=
  ∀ s : State, s.status = .running → s.memLen.val ≤ s.pc.toNat →
    step s = .next { s with
      status := .haltedFault, fkind := .addressOutOfBounds, faddr := s.pc, fop := 0, fopv := false }

/-- Phase 2 (R92): an opcode above 21 raises `IllegalOpcode`; a legal opcode with an operand cell at or
beyond `MEMLEN` raises `AddressOutOfBounds` with `FOPV` 1; otherwise the instruction is the opcode's, with
the cells that follow as its raw operands. -/
def Obligations.OperandFetchFollowsTheOpcode : Prop :=
  ∀ s : State, s.status = .running → s.pc.toNat < s.memLen.val →
    (21 < (s.cell s.pc.toNat).toNat →
      step s = .next { s with
        status := .haltedFault, fkind := .illegalOpcode, faddr := s.pc, fop := s.cell s.pc.toNat,
        fopv := true }) ∧
    (∀ roles, matrixRoles (s.cell s.pc.toNat).toNat = some roles →
      (s.memLen.val ≤ s.pc.toNat + roles.length →
        step s = .next { s with
          status := .haltedFault, fkind := .addressOutOfBounds, faddr := s.pc, fop := s.cell s.pc.toNat,
          fopv := true }) ∧
      (s.pc.toNat + roles.length < s.memLen.val →
        ∃ i, i.opcode = s.cell s.pc.toNat ∧ step s = exec i s ∧
          i.operands = roles.mapIdx fun j ro => (ro, .ofCell (s.cell (s.pc.toNat + 1 + j)))))

/-- Every state has a next state: no step of the model ends in a fault or a refusal of its own, since every
exceptional condition is a next state that the spec describes (R90 to R102). -/
def Obligations.EveryStepAnswersANextState : Prop :=
  ∀ s : State, ∃ t, step s = .next t

/-- A halted core performs no step: nothing changes (R101, 60_exceptions.md R179). -/
def Obligations.HaltedCoreDoesNothing : Prop :=
  ∀ s : State, s.status ≠ .running → step s = .next s

/-- Fault entry (R176): a step that ends the run by a fault writes the fault record and the status and
changes nothing else; `FOPV` is 0 only for the opcode fetch (the spec's decisions D7 and D10, log entry
14). -/
def Obligations.FaultsArePrecise : Prop :=
  ∀ s t : State, s.status = .running → step s = .next t → t.status = .haltedFault →
    ∃ k v, k ≠ .noFault ∧ (v = false ↔ s.memLen.val ≤ s.pc.toNat) ∧
      t = { s with
        status := .haltedFault, fkind := k, faddr := s.pc,
        fop := if v then s.cell s.pc.toNat else 0, fopv := v }

/-- Normal halt (R178): performed by `halt` and by `ret` on an empty stack and by nothing else; the status
changes, nothing else does, and the fault record of a machine that meets the invariant stays 0. -/
def Obligations.NormalHaltOnlyByHaltOrRet : Prop :=
  ∀ s t : State, s.Inv → s.status = .running → step s = .next t →
    (t.status = .haltedNormal ↔ fetch s = .ok .halt ∨ (fetch s = .ok .ret ∧ s.stack = [])) ∧
    (t.status = .haltedNormal → t = { s with status := .haltedNormal } ∧
      t.fkind = .noFault ∧ t.faddr = 0 ∧ t.fop = 0 ∧ t.fopv = false)

/-- A step after which the core still runs has moved the pc, unless it was an `in` that waits, and that
step changed nothing at all (R96, R100, R184). -/
def Obligations.RunningStepMovesPcOrWaits : Prop :=
  ∀ s t : State, s.status = .running → step s = .next t → t.status = .running →
    (t.pc = s.pc ↔ s.waiting) ∧ (s.waiting → t = s)

/-- An instruction other than a control transfer, when it leaves the core running and does not wait, adds
its length to the pc, with no wrap (10_state.md R25). -/
def Obligations.PcAdvancesByTheLength : Prop :=
  ∀ (s t : State) (i : Instr), s.status = .running → fetch s = .ok i → step s = .next t →
    t.status = .running → ¬ s.waiting →
    (∀ a, i ≠ .jmp a) → (∀ a b, i ≠ .jt a b) → (∀ a b, i ≠ .jf a b) → (∀ a, i ≠ .call a) → i ≠ .ret →
    t.pc.toNat = s.pc.toNat + i.operandCount + 1

/-! ## Frames -/

/-- No instruction changes a register other than the one its `dst` operand names; the ten instructions
without a `dst` operand change none (10_state.md R22). -/
def Obligations.OnlyTheDestinationRegisterChanges : Prop :=
  ∀ (i : Instr) (s t : State) (q : RegIx), exec i s = .next t →
    (Role.dst, Operand.reg q) ∉ i.operands → t.x[q] = s.x[q]

/-- Only `push` and `call` add to the stack, one Word; only `pop` and `ret` take from it, the top Word; no
other instruction changes it (10_state.md R27). -/
def Obligations.OnlyFourInstructionsReachTheStack : Prop :=
  ∀ (i : Instr) (s t : State), exec i s = .next t →
    t.stack = s.stack ∨
    (((∃ a, i = .push a) ∨ (∃ a, i = .call a)) ∧ Room s ∧ ∃ v, t.stack = v :: s.stack) ∨
    (((∃ a, i = .pop a) ∨ i = .ret) ∧ ∃ v, s.stack = v :: t.stack)

/-- Every cell that is not the one a `wmem` stores to reads after an instruction as before it
(20_memory.md R51, R56). -/
def Obligations.OnlyWmemChangesMemory : Prop :=
  ∀ (i : Instr) (s t : State) (k : Nat), s.mem.wf = true → exec i s = .next t →
    (∀ a b addr, i = .wmem a b → resolve s a = .ok addr → addr.toNat ≠ k) → t.cell k = s.cell k

/-- Only `out` changes the output, by one code at its end; only `in` changes the input, by its first
character; a step keeps both in order (10_state.md R35, R36). -/
def Obligations.OnlyInAndOutMoveCharacters : Prop :=
  ∀ (i : Instr) (s t : State), exec i s = .next t →
    (t.output = s.output ∨ ∃ a c, i = .out a ∧ resolve s a = .ok c ∧ t.output = s.output ++ [c]) ∧
    (t.input = s.input ∨ ∃ r c, i = .inp (.reg r) ∧ s.input = c :: t.input ∧ t.x[r] = c)

/-- No step changes `MEMLEN` or the stack's capacity; the fault record changes only when the run ends by a
fault (20_memory.md R50, 10_state.md R33). -/
def Obligations.RunParametersAndRecordStay : Prop :=
  ∀ s t : State, step s = .next t →
    t.memLen = s.memLen ∧ t.stackDepth = s.stackDepth ∧
    (t.status ≠ .haltedFault → t.fkind = s.fkind ∧ t.faddr = s.faddr ∧ t.fop = s.fop ∧ t.fopv = s.fopv)

/-! ## Whole-machine rules -/

/-- Every step keeps the invariant: canonical memory inside `MEMLEN`, a pc that never passes 32768, a stack
within its capacity, a fault record that is 0 until a fault and then holds its address and opcode. -/
def Obligations.StepKeepsTheInvariant : Prop :=
  ∀ s t : State, s.Inv → step s = .next t → t.Inv

/-- The invariant holds right after reset. The values of `MEMLEN` and of the input there are the model's
choice (log entries 4 and 5). -/
def Obligations.ResetMeetsTheInvariant : Prop := State.reset.Inv

/-- The invariant holds after every boot, and after reset from every state that meets it
(70_reset_and_hazards.md R200 to R203). -/
def Obligations.BootMeetsTheInvariant : Prop :=
  (∀ bytes chars t, boot bytes chars = some t → t.Inv) ∧ ∀ s : State, s.Inv → (assertReset s).Inv

/-- The fault matrix (60_exceptions.md R170, R181, R182): a running core's step takes the first fault of
the priority order (the spec's decision D6, log entry 14), with its `FOPV`, and when the matrix names none the
step ends in no fault. -/
def Obligations.StepFaultsAsTheMatrixSays : Prop :=
  ∀ s : State, s.status = .running →
    (∀ k v, matrixFault s = some (k, v) →
      step s = .next { s with
        status := .haltedFault, fkind := k, faddr := s.pc,
        fop := if v then s.cell s.pc.toNat else 0, fopv := v }) ∧
    (matrixFault s = none → ∃ t, step s = .next t ∧ t.status ≠ .haltedFault)

/-- A store is seen by every later fetch (20_memory.md R62): after a `wmem` that commits, the cells a fetch
reads anywhere are those it read before with the stored cell replaced. -/
def Obligations.StoreIsSeenByTheNextFetch : Prop :=
  ∀ (s t : State) (a b : Operand) (addr v : Word), s.mem.wf = true →
    resolve s a = .ok addr → resolve s b = .ok v → addr.toNat < s.memLen.val →
    exec (.wmem a b) s = .next t →
    ∀ k n, t.cellsFrom k n =
      (s.cellsFrom k n).mapIdx fun j c => if k + j = addr.toNat then v.setWidth 16 else c

/-- No step creates a cell above 32767: such cells come from the image only (R51, 45_memory_access.md
R151). -/
def Obligations.NoStepCreatesALargeCell : Prop :=
  ∀ (s t : State) (k : Nat), s.mem.wf = true → step s = .next t →
    32767 < (t.cell k).toNat → t.cell k = s.cell k

/-- A step depends on no character but the next one, and not on what was sent before: more characters
behind the waiting ones and another past output change the result in nothing else (R103). -/
def Obligations.StepReadsOnlyTheNextCharacter : Prop :=
  ∀ (s t : State) (more old : List Word), s.input ≠ [] → step s = .next t →
    step { s with input := s.input ++ more, output := old ++ s.output } =
      .next { t with input := t.input ++ more, output := old ++ t.output }

/-- `push` followed at once by `pop` into any register gives that register the pushed value and leaves the
stack as it was (70_reset_and_hazards.md R208, 95_test_vectors.md S10). -/
def Obligations.PushThenPopReturnsTheValue : Prop :=
  ∀ (s : State) (a : Operand) (r : RegIx) (v : Word), resolve s a = .ok v → Room s →
    ∃ t, exec (.push a) s = .next t ∧
      exec (.pop (.reg r)) t = .next { s with x := s.x.set r.val v r.isLt, pc := s.pc + 2 + 2 }

/-- After a `call` at `p` that commits, a `ret` anywhere but at `p + 2`, with the stack as the `call` left it,
goes to `p + 2` and restores the stack (R133, R134, 95_test_vectors.md S11). -/
def Obligations.CallThenRetComesBack : Prop :=
  ∀ (s t u : State) (a : Operand), exec (.call a) s = .next t → t.status ≠ .haltedFault →
    u.stack = t.stack → u.pc.toNat ≠ s.pc.toNat + 2 →
    exec .ret u = .next { u with stack := s.stack, pc := s.pc + 2 }

/-! ## Host interface -/

/-- Loading (20_memory.md R53): an image of odd length or of more than 32768 words is refused; any other
fixes `MEMLEN` at half its length and puts the little-endian words in the cells; a sequence of words goes
in unchanged; nothing but memory changes. The refusals are the spec's decision D3 (log entry 14). -/
def Obligations.ImageLoadsLittleEndian : Prop :=
  (∀ (bytes : List (BitVec 8)) (s : State),
    (bytes.length % 2 = 1 → loadImage bytes s = none) ∧
    (32768 < bytes.length / 2 → loadImage bytes s = none) ∧
    (bytes.length % 2 = 0 → bytes.length / 2 ≤ 32768 →
      ∃ t, loadImage bytes s = some t ∧ t = { s with mem := t.mem, memLen := t.memLen } ∧
        t.mem.wf = true ∧ t.memLen.val = bytes.length / 2 ∧
        ∀ k, k < bytes.length / 2 →
          (t.cell k).toNat = (bytes.getD (2 * k) 0).toNat + 256 * (bytes.getD (2 * k + 1) 0).toNat)) ∧
  (∀ (img : List Cell) (s : State),
    (32768 < img.length → loadWords img s = none) ∧
    (img.length ≤ 32768 →
      ∃ t, loadWords img s = some t ∧ t = { s with mem := t.mem, memLen := t.memLen } ∧
        t.mem.wf = true ∧ t.memLen.val = img.length ∧ ∀ k, k < img.length → t.cell k = img.getD k 0))

/-- Reset (70_reset_and_hazards.md R200, R201, 10_state.md R39): from every state, registers, pc, stack,
status and fault record take their reset values and memory is as it was (the spec's decision D14, log entry
14). -/
def Obligations.ResetClearsAllButMemory : Prop :=
  ∀ s : State,
    (∀ r : RegIx, (assertReset s).x[r] = 0) ∧ (assertReset s).pc = 0 ∧ (assertReset s).stack = [] ∧
    (assertReset s).status = .running ∧ (assertReset s).fkind = .noFault ∧ (assertReset s).faddr = 0 ∧
    (assertReset s).fop = 0 ∧ (assertReset s).fopv = false ∧
    (assertReset s).mem = s.mem ∧ (assertReset s).memLen = s.memLen ∧
    (assertReset s).input = s.input ∧ (assertReset s).output = s.output

/-- The status port reads the run status and the fault record in the numbers of 10_state.md R30 and R31 (the
spec's decision D10, log entry 14). -/
def Obligations.StatusPortReadsTheCodes : Prop :=
  (RunStatus.running.code = 0 ∧ RunStatus.haltedNormal.code = 1 ∧ RunStatus.haltedFault.code = 2) ∧
  (FaultKind.noFault.code = 0 ∧ FaultKind.outOfRangeValue.code = 1 ∧ FaultKind.invalidRegister.code = 2 ∧
    FaultKind.addressOutOfBounds.code = 3 ∧ FaultKind.stackUnderflow.code = 4 ∧
    FaultKind.illegalOpcode.code = 5 ∧ FaultKind.stuckPC.code = 6 ∧ FaultKind.stackOverflow.code = 7) ∧
  ∀ s : State,
    (readStatus s).status = s.status.code ∧ (readStatus s).fkind = s.fkind.code ∧
    (readStatus s).faddr = s.faddr ∧ (readStatus s).fop = s.fop ∧
    ((readStatus s).fopv = 1 ↔ s.fopv = true)

/-- The text a host renders after a fault with `FOPV` 1 is that of the instruction the faulting step
fetched: the fault left memory as it was (60_exceptions.md R176, R177). -/
def Obligations.FaultTextIsTheFetchedInstruction : Prop :=
  ∀ (s t : State) (i : Instr), s.status = .running → fetch s = .ok i → step s = .next t →
    t.status = .haltedFault → faultText t = instrText i

/-- Loading an instruction where the next step fetches makes that step run exactly it, from any state with
memory in canonical form (the model's own operation, log entry 8). -/
def Obligations.PlacedInstructionRunsNext : Prop :=
  ∀ (s : State) (nbits w : Nat) (i : Instr), s.mem.wf = true → decodeTableWord nbits w = some i →
    step (s.withFetchWord nbits w) = exec i (s.withFetchWord nbits w)

/-! ## Assembly text -/

/-- Round-trip law (30_encoding.md R86): disassembling what a source assembles to gives that source back. That it
is the same text, character for character, rests on the one spelling of lines and words that the model accepts
(DESIGN CHOICE, log entry 11). -/
def Obligations.DisassemblyOfAssemblyIsTheSource : Prop :=
  ∀ (src : Text) (cells : List Cell), assemble src = .ok cells → disassemble cells = some src

/-- The other way round (R83, R86): the cells of one or more well-formed instructions disassemble, and
assembling that text gives them back. Any other image that disassembles is refused for a literal in a destination
position (93_implementation_defined.md U27, log entry 11), and never assembles to other cells. -/
def Obligations.AssemblyOfDisassemblyIsTheImage : Prop :=
  (∀ is : List Instr, is ≠ [] → (∀ i ∈ is, i.wellFormed = true) →
    ∃ src, disassemble (is.flatMap encode) = some src ∧ assemble src = .ok (is.flatMap encode)) ∧
  (∀ (src : Text) (cells : List Cell), cells ≠ [] → disassemble cells = some src →
    assemble src = .ok cells ∨ ∃ line, assemble src = .error ⟨line, .literalDestination⟩)

/-- The assembler's checks (R83, R84): no operand token gives a cell above 32775, a wrong operand count is
reported with the expected and the actual count, one bad line rejects the whole source under that line's number,
and the line of an instruction with a literal in a destination position is refused (93_implementation_defined.md
U27, log entry 11). That the count is checked before the tokens, that lines are counted from 1 and that of several
bad lines the first is reported is the model's choice and not R84's (DESIGN CHOICE, log entry 11). -/
def Obligations.AssemblerRejectsBadLines : Prop :=
  (∀ t o, readOperand t = .ok o → o.toCell.toNat ≤ 32775) ∧
  (∀ m toks n roles, splitText ' ' m = [m] → mnemonics[n]? = some m → matrixRoles n = some roles →
    (∀ t ∈ toks, splitText ' ' t = [t]) → toks.length ≠ roles.length →
    assembleLine (joinText ' ' (m :: toks)) = .error (.operandCount roles.length toks.length)) ∧
  (∀ good bad rest cells e, assembleLines 1 good = .ok cells → assembleLine bad = .error e →
    assembleLines 1 (good ++ bad :: rest) = .error ⟨good.length + 1, e⟩) ∧
  (∀ i line, instrText i = some line → (∃ v, (Role.dst, Operand.lit v) ∈ i.operands) →
    assembleLine line = .error .literalDestination)
end

