-- ==== Sys2Proof/Laws/Decode.lean ====
section
/-! SUPPORT. The laws of operand cells: reading a written operand and writing a read one are inverse. -/

namespace Sys2Proof

theorem regIxOf_val {n : Nat} (h : n < 8) : (regIxOf n).val = n := by
  rw [regIxOf, Fin.val_ofNat, Nat.mod_eq_of_lt h]

theorem invalidIxOf_val {n : Nat} (h : n < 32760) : (invalidIxOf n).val = n := by
  rw [invalidIxOf, Fin.val_ofNat, Nat.mod_eq_of_lt h]

theorem Operand.toCell_lit_toNat (v : Word) : (Operand.lit v).toCell.toNat = v.toNat := by
  have := v.isLt
  simp only [Operand.toCell, BitVec.toNat_setWidth]
  omega

theorem Operand.toCell_reg_toNat (r : RegIx) : (Operand.reg r).toCell.toNat = 32768 + r.val := by
  have := r.isLt
  simp only [Operand.toCell, BitVec.toNat_ofNat]
  omega

theorem Operand.toCell_invalid_toNat (k : Fin 32760) : (Operand.invalid k).toCell.toNat = 32776 + k.val := by
  have := k.isLt
  simp only [Operand.toCell, BitVec.toNat_ofNat]
  omega

/-- A written operand reads back as itself: no bit of an operand is lost. -/
@[simp] theorem Operand.ofCell_toCell (o : Operand) : Operand.ofCell o.toCell = o := by
  cases o with
  | lit v =>
    have h := v.isLt
    have hn := Operand.toCell_lit_toNat v
    have : (Operand.lit v).toCell.toNat < 32768 := by omega
    simp only [Operand.ofCell, this, if_true, Operand.lit.injEq]
    apply BitVec.eq_of_toNat_eq
    rw [BitVec.toNat_setWidth, hn]
    omega
  | reg r =>
    have h := r.isLt
    have hn := Operand.toCell_reg_toNat r
    have h1 : ¬ (Operand.reg r).toCell.toNat < 32768 := by omega
    have h2 : (Operand.reg r).toCell.toNat < 32776 := by omega
    simp only [Operand.ofCell, h1, h2, if_true, if_false, Operand.reg.injEq]
    apply Fin.ext
    rw [regIxOf_val (by omega), hn]
    omega
  | invalid k =>
    have h := k.isLt
    have hn := Operand.toCell_invalid_toNat k
    have h1 : ¬ (Operand.invalid k).toCell.toNat < 32768 := by omega
    have h2 : ¬ (Operand.invalid k).toCell.toNat < 32776 := by omega
    simp only [Operand.ofCell, h1, h2, if_false, Operand.invalid.injEq]
    apply Fin.ext
    rw [invalidIxOf_val (by omega), hn]
    omega

/-- A read operand cell is written back as itself: no two cells say the same. -/
@[simp] theorem Operand.toCell_ofCell (o : Cell) : (Operand.ofCell o).toCell = o := by
  have h := o.isLt
  apply BitVec.eq_of_toNat_eq
  unfold Operand.ofCell
  split_ifs with h1 h2
  · rw [Operand.toCell_lit_toNat, BitVec.toNat_setWidth]; omega
  · rw [Operand.toCell_reg_toNat, regIxOf_val (by omega)]; omega
  · rw [Operand.toCell_invalid_toNat, invalidIxOf_val (by omega)]; omega

end Sys2Proof
end

