-- ==== Sys2Proof/Laws/Assembly.lean ====
section
/-! SUPPORT. The laws of the text form: splitting and joining are inverse, and a decimal token reads as the
number it was written for. -/

namespace Sys2Proof.Machine

/-! ### Splitting and joining -/

theorem splitText_ne_nil (sep : Char) (t : Text) : splitText sep t ≠ [] := by
  cases t with
  | nil => simp [splitText]
  | cons c t => simp only [splitText]; split_ifs <;> (try split) <;> simp

/-- Joining the pieces of a text gives the text. -/
theorem joinText_splitText (sep : Char) (t : Text) : joinText sep (splitText sep t) = t := by
  induction t with
  | nil => rfl
  | cons c t ih =>
    simp only [splitText]
    split_ifs with h
    · subst h
      cases hs : splitText c t with
      | nil => exact absurd hs (splitText_ne_nil c t)
      | cons w ws => rw [hs] at ih; simp [joinText, ih]
    · cases hs : splitText sep t with
      | nil => exact absurd hs (splitText_ne_nil sep t)
      | cons w ws =>
        rw [hs] at ih
        cases ws with
        | nil => simpa [joinText] using ih
        | cons v ws => simpa [joinText] using ih

/-- A text without the separator is one piece. -/
theorem splitText_of_not_mem (sep : Char) (w : Text) (h : sep ∉ w) : splitText sep w = [w] := by
  induction w with
  | nil => rfl
  | cons c w ih =>
    simp only [List.mem_cons, not_or] at h
    simp [splitText, ih h.2, Ne.symm h.1]

/-- No piece holds the separator. -/
theorem not_mem_of_mem_splitText (sep : Char) (t w : Text) (h : w ∈ splitText sep t) : sep ∉ w := by
  induction t generalizing w with
  | nil => simp [splitText] at h; simp [h]
  | cons c t ih =>
    simp only [splitText] at h
    split_ifs at h with hc
    · rcases List.mem_cons.mp h with rfl | h
      · simp
      · exact ih w h
    · cases hs : splitText sep t with
      | nil => exact absurd hs (splitText_ne_nil sep t)
      | cons v ws =>
        simp only [hs, List.mem_cons] at h ih
        rcases h with rfl | h
        · simpa [Ne.symm hc] using ih v (.inl rfl)
        · exact ih w (.inr h)

/-- Splitting after a piece and a separator gives that piece first. -/
theorem splitText_append (sep : Char) (w t : Text) (h : sep ∉ w) :
    splitText sep (w ++ sep :: t) = w :: splitText sep t := by
  induction w with
  | nil => simp [splitText]
  | cons c w ih =>
    simp only [List.mem_cons, not_or] at h
    simp [splitText, ih h.2, Ne.symm h.1]

/-- Splitting a joined list of pieces gives the pieces. -/
theorem splitText_joinText (sep : Char) (ws : List Text) (hne : ws ≠ []) (h : ∀ w ∈ ws, sep ∉ w) :
    splitText sep (joinText sep ws) = ws := by
  induction ws with
  | nil => exact absurd rfl hne
  | cons w ws ih =>
    cases ws with
    | nil => exact splitText_of_not_mem sep w (h w (by simp))
    | cons v ws =>
      rw [joinText, splitText_append _ _ _ (h w (by simp)), ih (by simp) fun u hu => h u (by simp [hu])]

/-! ### Decimal numbers -/

theorem readDigits_append (acc : Nat) (t : Text) (c : Char) :
    readDigits acc (t ++ [c]) =
      (readDigits acc t).bind fun n =>
        if 48 ≤ c.toNat ∧ c.toNat ≤ 57 then some (n * 10 + (c.toNat - 48)) else none := by
  induction t generalizing acc with
  | nil => simp [readDigits]
  | cons d t ih =>
    simp only [List.cons_append, readDigits]
    by_cases hd : 48 ≤ d.toNat ∧ d.toNat ≤ 57
    · rw [if_pos hd, if_pos hd]; exact ih _
    · rw [if_neg hd, if_neg hd]; rfl

theorem le_of_readDigits {acc n : Nat} {t : Text} (h : readDigits acc t = some n) : acc ≤ n := by
  induction t generalizing acc with
  | nil => simp [readDigits] at h; omega
  | cons c t ih =>
    simp only [readDigits] at h
    split_ifs at h
    have := ih h
    omega

theorem digitChar_toNat {d : Nat} (h : d < 10) : (Char.ofNat (48 + d)).toNat = 48 + d := by
  interval_cases d <;> rfl

/-- A written number reads back. -/
theorem readDigits_decimal (f n : Nat) (hf : 0 < f) (h : n < 10 ^ f) : readDigits 0 (decimal f n) = some n := by
  induction f generalizing n with
  | zero => omega
  | succ f ih =>
    simp only [decimal]
    split_ifs with hn
    · simp only [readDigits, digitChar_toNat hn]
      rw [if_pos (by omega)]
      congr 1; omega
    · have hf' : 0 < f := by
        rcases Nat.eq_zero_or_pos f with rfl | hp
        · omega
        · exact hp
      rw [readDigits_append, ih (n / 10) hf' (by rw [pow_succ] at h; omega)]
      have hd : n % 10 < 10 := Nat.mod_lt _ (by omega)
      simp only [Option.bind_some, digitChar_toNat hd]
      rw [if_pos (by omega)]
      congr 1; omega

/-- A token of digits without a leading zero is the number it reads as, written. -/
theorem decimal_of_readDigits (t : Text) : ∀ (f n : Nat) (c : Char) (r : Text), t = c :: r →
    (c = '0' → r = []) → 0 < f → n < 10 ^ f → readDigits 0 t = some n → decimal f n = t := by
  induction t using List.reverseRecOn with
  | nil => intro f n c r h; simp at h
  | append_singleton t d ih =>
    intro f n c r ht h0 hf hn hr
    rw [readDigits_append] at hr
    cases hm : readDigits 0 t with
    | none => simp [hm] at hr
    | some m =>
      simp only [hm, Option.bind_some] at hr
      split_ifs at hr with hd
      simp only [Option.some.injEq] at hr
      have hchar : Char.ofNat (48 + (d.toNat - 48)) = d := by
        rw [show 48 + (d.toNat - 48) = d.toNat by omega, Char.ofNat_toNat]
      cases f with
      | zero => omega
      | succ f =>
        cases t with
        | nil =>
          simp only [readDigits, Option.some.injEq] at hm
          have : n = d.toNat - 48 := by omega
          have hlt : n < 10 := by omega
          simp only [decimal, hlt, if_true, List.nil_append]
          rw [this, hchar]
        | cons e t =>
          simp only [List.cons_append, List.cons.injEq] at ht
          obtain ⟨rfl, rfl⟩ := ht
          have he : e ≠ '0' := fun h => by simpa using h0 h
          have hm1 : 1 ≤ m := by
            simp only [readDigits] at hm
            split_ifs at hm with hdig
            have hle := le_of_readDigits hm
            have : e.toNat ≠ 48 := by
              intro h48
              apply he
              rw [← Char.ofNat_toNat e, h48]
            omega
          have hnot : ¬ n < 10 := by omega
          have hdiv : n / 10 = m := by omega
          have hmod : n % 10 = d.toNat - 48 := by omega
          have hfpos : 0 < f := by
            rcases Nat.eq_zero_or_pos f with rfl | hp
            · omega
            · exact hp
          simp only [decimal, hnot, if_false, hdiv, hmod, hchar]
          rw [ih f m e t rfl (fun h => absurd h he) hfpos (by rw [pow_succ] at hn; omega) hm]

/-- A written number starts with 0 only if it is 0. -/
theorem decimal_head (f n : Nat) (hf : 0 < f) (h : n < 10 ^ f) :
    ∃ c r, decimal f n = c :: r ∧ (c = '0' → r = []) ∧ 48 ≤ c.toNat ∧ c.toNat ≤ 57 := by
  induction f generalizing n with
  | zero => omega
  | succ f ih =>
    simp only [decimal]
    split_ifs with hn
    · exact ⟨_, _, rfl, fun _ => rfl, by rw [digitChar_toNat hn]; omega, by rw [digitChar_toNat hn]; omega⟩
    · have hf' : 0 < f := by
        rcases Nat.eq_zero_or_pos f with rfl | hp
        · omega
        · exact hp
      have hlt : n / 10 < 10 ^ f := by rw [pow_succ] at h; omega
      obtain ⟨c, r, hd, h0, h1, h2⟩ := ih (n / 10) hf' hlt
      refine ⟨c, r ++ [Char.ofNat (48 + n % 10)], by rw [hd]; rfl, ?_, h1, h2⟩
      intro hc
      exfalso
      have hr := readDigits_decimal f (n / 10) hf' hlt
      rw [hd, h0 hc, hc] at hr
      have : (0 : Nat) = n / 10 := by simpa [readDigits] using hr
      omega

/-! ### Operand tokens -/

/-- A token that reads as an operand is that operand's text. -/
theorem operandText_of_readOperand {t : Text} {o : Operand} (h : readOperand t = .ok o) :
    operandText o = some t := by
  have lit : readLiteral t = .ok o → operandText o = some t := by
    intro h
    cases t with
    | nil => simp [readLiteral] at h
    | cons c r =>
      simp only [readLiteral] at h
      split_ifs at h with h0
      split at h
      · simp at h
      · rename_i n hn
        split_ifs at h with hle
        simp only [Except.ok.injEq] at h
        subst h
        have : (BitVec.ofNat 15 n).toNat = n := by rw [BitVec.toNat_ofNat]; omega
        simp only [operandText, this]
        rw [decimal_of_readDigits (c :: r) 5 n c r rfl (fun hc => by
          by_contra hr; exact h0 ⟨hc, hr⟩) (by omega) (by omega) hn]
  unfold readOperand at h
  split at h
  · rename_i c
    split_ifs at h with hc
    · simp only [Except.ok.injEq] at h
      subst h
      simp only [operandText, regIxOf_val (show c.toNat - 97 < 8 by omega)]
      rw [show 97 + (c.toNat - 97) = c.toNat by omega, Char.ofNat_toNat]
    · exact lit h
  · exact lit h

/-- The text of an operand reads as that operand. -/
theorem readOperand_of_operandText {t : Text} {o : Operand} (h : operandText o = some t) :
    readOperand t = .ok o := by
  cases o with
  | lit v =>
    simp only [operandText, Option.some.injEq] at h
    have hv := v.isLt
    obtain ⟨c, r, hd, h0, h1, h2⟩ := decimal_head 5 v.toNat (by omega) (by omega)
    have hr := readDigits_decimal 5 v.toNat (by omega) (by omega)
    have : readLiteral t = .ok (.lit v) := by
      rw [← h, hd] at *
      simp only [readLiteral]
      rw [if_neg (fun hc => hc.2 (h0 hc.1))]
      simp only [hr]
      rw [if_pos (by omega)]
      simp
    rw [← this, ← h, hd]
    cases r with
    | nil =>
      simp only [readOperand]
      rw [if_neg (by omega)]
    | cons d r => rfl
  | reg r =>
    simp only [operandText, Option.some.injEq] at h
    subst h
    fin_cases r <;> rfl
  | invalid k => simp [operandText] at h

/-- No operand text holds a space or a line end. -/
theorem operandText_no_sep {t : Text} {o : Operand} (h : operandText o = some t) (c : Char)
    (hc : c.toNat < 48) : c ∉ t := by
  cases o with
  | lit v =>
    simp only [operandText, Option.some.injEq] at h
    subst h
    have key : ∀ f n, ∀ d ∈ decimal f n, 48 ≤ d.toNat := by
      intro f
      induction f with
      | zero => simp [decimal]
      | succ f ih =>
        intro n d hd
        simp only [decimal] at hd
        split_ifs at hd with hn
        · simp only [List.mem_singleton] at hd
          rw [hd, digitChar_toNat hn]; omega
        · simp only [List.mem_append, List.mem_singleton] at hd
          rcases hd with hd | hd
          · exact ih _ _ hd
          · rw [hd, digitChar_toNat (Nat.mod_lt _ (by omega))]; omega
    intro hm
    have := key _ _ _ hm
    omega
  | reg r =>
    simp only [operandText, Option.some.injEq] at h
    subst h
    have : 97 ≤ (Char.ofNat (97 + r.val)).toNat := by fin_cases r <;> decide
    intro hm
    simp only [List.mem_singleton] at hm
    rw [← hm] at this
    omega
  | invalid k => simp [operandText] at h

/-! ### Roles -/

/-- The role check passes the cells of a well-formed instruction and refuses those of any other. -/
theorem checkRoles_encode (i : Instr) :
    checkRoles (encode i) = if i.wellFormed then .ok (encode i) else .error .literalDestination := by
  cases i <;> simp [checkRoles, encode, decode, Instr.opcode, Instr.operands, opcodeMap, takeOperands]

/-- A literal in a destination position is not well formed. -/
theorem not_wellFormed_of_lit_dst {i : Instr} {v : Word} (h : (Role.dst, Operand.lit v) ∈ i.operands) :
    i.wellFormed = false := by
  rw [Instr.wellFormed, List.all_eq_false]
  exact ⟨_, h, by simp [Operand.legal]⟩

/-! ### Mnemonics -/

/-- A mnemonic is found at its own opcode, and only there. -/
theorem opcodeOfText_iff (t : Text) (n : Nat) : opcodeOfText t = some n ↔ mnemonics[n]? = some t := by
  constructor
  · intro h
    unfold opcodeOfText at h
    rw [List.findIdx?_eq_some_iff_getElem] at h
    obtain ⟨hl, he, -⟩ := h
    rw [List.getElem?_eq_getElem hl]
    simpa using he
  · intro h
    have hl : n < 22 := by
      by_contra hc
      have : mnemonics.length ≤ n := by
        have : mnemonics.length = 22 := rfl
        omega
      rw [List.getElem?_eq_none this] at h
      simp at h
    interval_cases n <;> simp only [mnemonics, List.cons_append, List.nil_append,
      List.getElem?_cons_zero, List.getElem?_cons_succ, Option.some.injEq] at h <;> subst h <;> rfl

/-- No mnemonic holds a space or a line end. -/
theorem mnemonic_no_sep {t : Text} {n : Nat} (h : mnemonics[n]? = some t) (c : Char) (hc : c.toNat < 97) :
    c ∉ t := by
  have key : (mnemonics.all fun t => t.all fun d => decide (97 ≤ d.toNat)) = true := rfl
  simp only [List.all_eq_true, decide_eq_true_eq] at key
  intro hm
  have := key t (List.mem_of_getElem? h) c hm
  omega

end Sys2Proof.Machine
end

