-- ==== Sys2Proof/Laws/State.lean ====
section
/-! SUPPORT. What each named update does to each field of State, one lemma per field, each true by
definition, so that no later proof unfolds a record update. -/

namespace Sys2Proof.Machine

variable (s : State)

/-! ### `writeCell` -/

@[simp] theorem State.writeCell_x (k : Nat) (v : Cell) : (s.writeCell k v).x = s.x := rfl
@[simp] theorem State.writeCell_pc (k : Nat) (v : Cell) : (s.writeCell k v).pc = s.pc := rfl
@[simp] theorem State.writeCell_stack (k : Nat) (v : Cell) : (s.writeCell k v).stack = s.stack := rfl
@[simp] theorem State.writeCell_mem (k : Nat) (v : Cell) : (s.writeCell k v).mem = s.mem.store k v := rfl
@[simp] theorem State.writeCell_status (k : Nat) (v : Cell) : (s.writeCell k v).status = s.status := rfl
@[simp] theorem State.writeCell_fkind (k : Nat) (v : Cell) : (s.writeCell k v).fkind = s.fkind := rfl
@[simp] theorem State.writeCell_faddr (k : Nat) (v : Cell) : (s.writeCell k v).faddr = s.faddr := rfl
@[simp] theorem State.writeCell_fop (k : Nat) (v : Cell) : (s.writeCell k v).fop = s.fop := rfl
@[simp] theorem State.writeCell_fopv (k : Nat) (v : Cell) : (s.writeCell k v).fopv = s.fopv := rfl
@[simp] theorem State.writeCell_memLen (k : Nat) (v : Cell) : (s.writeCell k v).memLen = s.memLen := rfl
@[simp] theorem State.writeCell_stackDepth (k : Nat) (v : Cell) : (s.writeCell k v).stackDepth = s.stackDepth := rfl
@[simp] theorem State.writeCell_input (k : Nat) (v : Cell) : (s.writeCell k v).input = s.input := rfl
@[simp] theorem State.writeCell_output (k : Nat) (v : Cell) : (s.writeCell k v).output = s.output := rfl

/-! ### `writeReg` -/

@[simp] theorem State.writeReg_x (r : RegIx) (v : Word) : (s.writeReg r v).x = s.x.set r.val v r.isLt := rfl
@[simp] theorem State.writeReg_pc (r : RegIx) (v : Word) : (s.writeReg r v).pc = s.pc := rfl
@[simp] theorem State.writeReg_stack (r : RegIx) (v : Word) : (s.writeReg r v).stack = s.stack := rfl
@[simp] theorem State.writeReg_mem (r : RegIx) (v : Word) : (s.writeReg r v).mem = s.mem := rfl
@[simp] theorem State.writeReg_status (r : RegIx) (v : Word) : (s.writeReg r v).status = s.status := rfl
@[simp] theorem State.writeReg_fkind (r : RegIx) (v : Word) : (s.writeReg r v).fkind = s.fkind := rfl
@[simp] theorem State.writeReg_faddr (r : RegIx) (v : Word) : (s.writeReg r v).faddr = s.faddr := rfl
@[simp] theorem State.writeReg_fop (r : RegIx) (v : Word) : (s.writeReg r v).fop = s.fop := rfl
@[simp] theorem State.writeReg_fopv (r : RegIx) (v : Word) : (s.writeReg r v).fopv = s.fopv := rfl
@[simp] theorem State.writeReg_memLen (r : RegIx) (v : Word) : (s.writeReg r v).memLen = s.memLen := rfl
@[simp] theorem State.writeReg_stackDepth (r : RegIx) (v : Word) : (s.writeReg r v).stackDepth = s.stackDepth := rfl
@[simp] theorem State.writeReg_input (r : RegIx) (v : Word) : (s.writeReg r v).input = s.input := rfl
@[simp] theorem State.writeReg_output (r : RegIx) (v : Word) : (s.writeReg r v).output = s.output := rfl

/-! ### `setPc` -/

@[simp] theorem State.setPc_x (t : Pc) : (s.setPc t).x = s.x := rfl
@[simp] theorem State.setPc_pc (t : Pc) : (s.setPc t).pc = t := rfl
@[simp] theorem State.setPc_stack (t : Pc) : (s.setPc t).stack = s.stack := rfl
@[simp] theorem State.setPc_mem (t : Pc) : (s.setPc t).mem = s.mem := rfl
@[simp] theorem State.setPc_status (t : Pc) : (s.setPc t).status = s.status := rfl
@[simp] theorem State.setPc_fkind (t : Pc) : (s.setPc t).fkind = s.fkind := rfl
@[simp] theorem State.setPc_faddr (t : Pc) : (s.setPc t).faddr = s.faddr := rfl
@[simp] theorem State.setPc_fop (t : Pc) : (s.setPc t).fop = s.fop := rfl
@[simp] theorem State.setPc_fopv (t : Pc) : (s.setPc t).fopv = s.fopv := rfl
@[simp] theorem State.setPc_memLen (t : Pc) : (s.setPc t).memLen = s.memLen := rfl
@[simp] theorem State.setPc_stackDepth (t : Pc) : (s.setPc t).stackDepth = s.stackDepth := rfl
@[simp] theorem State.setPc_input (t : Pc) : (s.setPc t).input = s.input := rfl
@[simp] theorem State.setPc_output (t : Pc) : (s.setPc t).output = s.output := rfl

/-! ### `setStack` -/

@[simp] theorem State.setStack_x (st : List Word) : (s.setStack st).x = s.x := rfl
@[simp] theorem State.setStack_pc (st : List Word) : (s.setStack st).pc = s.pc := rfl
@[simp] theorem State.setStack_stack (st : List Word) : (s.setStack st).stack = st := rfl
@[simp] theorem State.setStack_mem (st : List Word) : (s.setStack st).mem = s.mem := rfl
@[simp] theorem State.setStack_status (st : List Word) : (s.setStack st).status = s.status := rfl
@[simp] theorem State.setStack_fkind (st : List Word) : (s.setStack st).fkind = s.fkind := rfl
@[simp] theorem State.setStack_faddr (st : List Word) : (s.setStack st).faddr = s.faddr := rfl
@[simp] theorem State.setStack_fop (st : List Word) : (s.setStack st).fop = s.fop := rfl
@[simp] theorem State.setStack_fopv (st : List Word) : (s.setStack st).fopv = s.fopv := rfl
@[simp] theorem State.setStack_memLen (st : List Word) : (s.setStack st).memLen = s.memLen := rfl
@[simp] theorem State.setStack_stackDepth (st : List Word) : (s.setStack st).stackDepth = s.stackDepth := rfl
@[simp] theorem State.setStack_input (st : List Word) : (s.setStack st).input = s.input := rfl
@[simp] theorem State.setStack_output (st : List Word) : (s.setStack st).output = s.output := rfl

/-! ### `setInput` -/

@[simp] theorem State.setInput_x (cs : List Word) : (s.setInput cs).x = s.x := rfl
@[simp] theorem State.setInput_pc (cs : List Word) : (s.setInput cs).pc = s.pc := rfl
@[simp] theorem State.setInput_stack (cs : List Word) : (s.setInput cs).stack = s.stack := rfl
@[simp] theorem State.setInput_mem (cs : List Word) : (s.setInput cs).mem = s.mem := rfl
@[simp] theorem State.setInput_status (cs : List Word) : (s.setInput cs).status = s.status := rfl
@[simp] theorem State.setInput_fkind (cs : List Word) : (s.setInput cs).fkind = s.fkind := rfl
@[simp] theorem State.setInput_faddr (cs : List Word) : (s.setInput cs).faddr = s.faddr := rfl
@[simp] theorem State.setInput_fop (cs : List Word) : (s.setInput cs).fop = s.fop := rfl
@[simp] theorem State.setInput_fopv (cs : List Word) : (s.setInput cs).fopv = s.fopv := rfl
@[simp] theorem State.setInput_memLen (cs : List Word) : (s.setInput cs).memLen = s.memLen := rfl
@[simp] theorem State.setInput_stackDepth (cs : List Word) : (s.setInput cs).stackDepth = s.stackDepth := rfl
@[simp] theorem State.setInput_input (cs : List Word) : (s.setInput cs).input = cs := rfl
@[simp] theorem State.setInput_output (cs : List Word) : (s.setInput cs).output = s.output := rfl

/-! ### `sendChar` -/

@[simp] theorem State.sendChar_x (c : Word) : (s.sendChar c).x = s.x := rfl
@[simp] theorem State.sendChar_pc (c : Word) : (s.sendChar c).pc = s.pc := rfl
@[simp] theorem State.sendChar_stack (c : Word) : (s.sendChar c).stack = s.stack := rfl
@[simp] theorem State.sendChar_mem (c : Word) : (s.sendChar c).mem = s.mem := rfl
@[simp] theorem State.sendChar_status (c : Word) : (s.sendChar c).status = s.status := rfl
@[simp] theorem State.sendChar_fkind (c : Word) : (s.sendChar c).fkind = s.fkind := rfl
@[simp] theorem State.sendChar_faddr (c : Word) : (s.sendChar c).faddr = s.faddr := rfl
@[simp] theorem State.sendChar_fop (c : Word) : (s.sendChar c).fop = s.fop := rfl
@[simp] theorem State.sendChar_fopv (c : Word) : (s.sendChar c).fopv = s.fopv := rfl
@[simp] theorem State.sendChar_memLen (c : Word) : (s.sendChar c).memLen = s.memLen := rfl
@[simp] theorem State.sendChar_stackDepth (c : Word) : (s.sendChar c).stackDepth = s.stackDepth := rfl
@[simp] theorem State.sendChar_input (c : Word) : (s.sendChar c).input = s.input := rfl
@[simp] theorem State.sendChar_output (c : Word) : (s.sendChar c).output = s.output ++ [c] := rfl

/-! ### `haltNormal` -/

@[simp] theorem State.haltNormal_x : s.haltNormal.x = s.x := rfl
@[simp] theorem State.haltNormal_pc : s.haltNormal.pc = s.pc := rfl
@[simp] theorem State.haltNormal_stack : s.haltNormal.stack = s.stack := rfl
@[simp] theorem State.haltNormal_mem : s.haltNormal.mem = s.mem := rfl
@[simp] theorem State.haltNormal_status : s.haltNormal.status = .haltedNormal := rfl
@[simp] theorem State.haltNormal_fkind : s.haltNormal.fkind = s.fkind := rfl
@[simp] theorem State.haltNormal_faddr : s.haltNormal.faddr = s.faddr := rfl
@[simp] theorem State.haltNormal_fop : s.haltNormal.fop = s.fop := rfl
@[simp] theorem State.haltNormal_fopv : s.haltNormal.fopv = s.fopv := rfl
@[simp] theorem State.haltNormal_memLen : s.haltNormal.memLen = s.memLen := rfl
@[simp] theorem State.haltNormal_stackDepth : s.haltNormal.stackDepth = s.stackDepth := rfl
@[simp] theorem State.haltNormal_input : s.haltNormal.input = s.input := rfl
@[simp] theorem State.haltNormal_output : s.haltNormal.output = s.output := rfl

/-! ### `takeFault` -/

@[simp] theorem State.takeFault_x (k : FaultKind) (v : Bool) : (s.takeFault k v).x = s.x := rfl
@[simp] theorem State.takeFault_pc (k : FaultKind) (v : Bool) : (s.takeFault k v).pc = s.pc := rfl
@[simp] theorem State.takeFault_stack (k : FaultKind) (v : Bool) : (s.takeFault k v).stack = s.stack := rfl
@[simp] theorem State.takeFault_mem (k : FaultKind) (v : Bool) : (s.takeFault k v).mem = s.mem := rfl
@[simp] theorem State.takeFault_status (k : FaultKind) (v : Bool) : (s.takeFault k v).status = .haltedFault := rfl
@[simp] theorem State.takeFault_fkind (k : FaultKind) (v : Bool) : (s.takeFault k v).fkind = k := rfl
@[simp] theorem State.takeFault_faddr (k : FaultKind) (v : Bool) : (s.takeFault k v).faddr = s.pc := rfl
@[simp] theorem State.takeFault_fop (k : FaultKind) (v : Bool) : (s.takeFault k v).fop = if v then s.cell s.pc.toNat else 0 := rfl
@[simp] theorem State.takeFault_fopv (k : FaultKind) (v : Bool) : (s.takeFault k v).fopv = v := rfl
@[simp] theorem State.takeFault_memLen (k : FaultKind) (v : Bool) : (s.takeFault k v).memLen = s.memLen := rfl
@[simp] theorem State.takeFault_stackDepth (k : FaultKind) (v : Bool) : (s.takeFault k v).stackDepth = s.stackDepth := rfl
@[simp] theorem State.takeFault_input (k : FaultKind) (v : Bool) : (s.takeFault k v).input = s.input := rfl
@[simp] theorem State.takeFault_output (k : FaultKind) (v : Bool) : (s.takeFault k v).output = s.output := rfl

/-! ### `assertReset` -/

@[simp] theorem assertReset_x : (assertReset s).x = Vector.replicate 8 0 := rfl
@[simp] theorem assertReset_pc : (assertReset s).pc = 0 := rfl
@[simp] theorem assertReset_stack : (assertReset s).stack = [] := rfl
@[simp] theorem assertReset_mem : (assertReset s).mem = s.mem := rfl
@[simp] theorem assertReset_status : (assertReset s).status = .running := rfl
@[simp] theorem assertReset_fkind : (assertReset s).fkind = .noFault := rfl
@[simp] theorem assertReset_faddr : (assertReset s).faddr = 0 := rfl
@[simp] theorem assertReset_fop : (assertReset s).fop = 0 := rfl
@[simp] theorem assertReset_fopv : (assertReset s).fopv = false := rfl
@[simp] theorem assertReset_memLen : (assertReset s).memLen = s.memLen := rfl
@[simp] theorem assertReset_stackDepth : (assertReset s).stackDepth = s.stackDepth := rfl
@[simp] theorem assertReset_input : (assertReset s).input = s.input := rfl
@[simp] theorem assertReset_output : (assertReset s).output = s.output := rfl

/-! ### Reading back -/

/-- A register reads what was last written to it, and the others keep their values. -/
@[simp] theorem State.writeReg_readReg (r q : RegIx) (v : Word) :
    (s.writeReg r v).readReg q = if q = r then v else s.readReg q := by
  simp only [State.readReg, State.writeReg, Fin.getElem_fin, Vector.getElem_set, Fin.ext_iff]
  split_ifs <;> first | rfl | omega

@[simp] theorem State.setPc_cell (t : Pc) (k : Nat) : (s.setPc t).cell k = s.cell k := rfl
@[simp] theorem State.writeReg_cell (r : RegIx) (v : Word) (k : Nat) : (s.writeReg r v).cell k = s.cell k := rfl
@[simp] theorem State.setStack_cell (st : List Word) (k : Nat) : (s.setStack st).cell k = s.cell k := rfl
@[simp] theorem State.setInput_cell (cs : List Word) (k : Nat) : (s.setInput cs).cell k = s.cell k := rfl
@[simp] theorem State.sendChar_cell (c : Word) (k : Nat) : (s.sendChar c).cell k = s.cell k := rfl
@[simp] theorem State.haltNormal_cell (k : Nat) : s.haltNormal.cell k = s.cell k := rfl
@[simp] theorem State.takeFault_cell (f : FaultKind) (v : Bool) (k : Nat) : (s.takeFault f v).cell k = s.cell k := rfl
@[simp] theorem State.setPc_readReg (t : Pc) (q : RegIx) : (s.setPc t).readReg q = s.readReg q := rfl
@[simp] theorem State.setStack_readReg (st : List Word) (q : RegIx) : (s.setStack st).readReg q = s.readReg q := rfl
@[simp] theorem State.setInput_readReg (cs : List Word) (q : RegIx) : (s.setInput cs).readReg q = s.readReg q := rfl

end Sys2Proof.Machine
end

