-- ==== Sys2Proof/Laws/Memory.lean ====
section
/-! SUPPORT. The laws of memory: reading after a write, and that every memory operation keeps the canonical
form and the bound. -/

namespace Sys2Proof.Machine

theorem memLenOf_val {n : Nat} (h : n ≤ 32768) : (memLenOf n).val = n := by
  have : n < Config.maxMemLen + 1 := by
    show n < 32768 + 1
    omega
  rw [memLenOf, Fin.val_ofNat, Nat.mod_eq_of_lt this]

/-- A memory whose listed addresses are all above `k` reads as unlisted at `k`. -/
theorem Memory.cellAt_of_all_above (m : Memory) (k : Nat) (h : m.all (fun e => decide (k < e.1)) = true) :
    m.cellAt k = Config.unlistedCell := by
  induction m with
  | nil => rfl
  | cons e t ih =>
    obtain ⟨a, c⟩ := e
    simp only [List.all_cons, Bool.and_eq_true, decide_eq_true_eq] at h
    have : a ≠ k := by omega
    simp [Memory.cellAt, this, ih h.2]

/-- Reading after a write gives the value written there, and the old value elsewhere. -/
theorem Memory.cellAt_store (m : Memory) (k j : Nat) (v : Cell) (h : m.wf = true) :
    (m.store k v).cellAt j = if j = k then v else m.cellAt j := by
  induction m with
  | nil =>
    by_cases hv : v = Config.unlistedCell
    · simp [Memory.store, hv, Memory.cellAt]
    · simp [Memory.store, hv, Memory.cellAt, eq_comm]
  | cons e t ih =>
    obtain ⟨a, c⟩ := e
    simp only [Memory.wf, Bool.and_eq_true] at h
    have hall := h.1.2
    have above : ∀ i, i ≤ a → Memory.cellAt t i = Config.unlistedCell := by
      intro i hi
      apply Memory.cellAt_of_all_above
      simp only [List.all_eq_true, decide_eq_true_eq] at hall ⊢
      intro e he
      have := hall e he
      omega
    by_cases h1 : k < a
    · have hk := above k (by omega)
      have : a ≠ k := by omega
      by_cases hv : v = Config.unlistedCell
      · simp only [Memory.store, h1, hv, if_true, Memory.cellAt]
        by_cases hj : j = k
        · subst hj; simp [this, hk]
        · simp [hj]
      · simp only [Memory.store, h1, hv, if_true, if_false, Memory.cellAt]
        by_cases hj : j = k
        · simp [hj]
        · simp [hj, Ne.symm hj]
    · by_cases h2 : k = a
      · subst h2
        have hk := above k (le_refl _)
        by_cases hv : v = Config.unlistedCell
        · simp only [Memory.store, lt_irrefl, hv, if_true, if_false, Memory.cellAt]
          by_cases hj : j = k
          · simp [hj, hk]
          · simp [hj, Ne.symm hj]
        · simp only [Memory.store, lt_irrefl, hv, if_true, if_false, Memory.cellAt]
          by_cases hj : j = k
          · simp [hj]
          · simp [hj, Ne.symm hj]
      · simp only [Memory.store, h1, h2, if_false, Memory.cellAt, ih h.2]
        by_cases ha : a = j
        · have : j ≠ k := by omega
          simp [ha, this]
        · simp [ha]

/-- A write keeps every listed address above a bound that the written address is above. -/
theorem Memory.store_all {P : Nat → Bool} (m : Memory) (k : Nat) (v : Cell) (hk : P k = true)
    (h : m.all (fun e => P e.1) = true) : (m.store k v).all (fun e => P e.1) = true := by
  induction m with
  | nil => by_cases hv : v = Config.unlistedCell <;> simp [Memory.store, hv, hk]
  | cons e t ih =>
    obtain ⟨a, c⟩ := e
    simp only [List.all_cons, Bool.and_eq_true] at h
    simp only [Memory.store]
    split_ifs <;> simp [h.1, h.2, hk, ih h.2]

/-- A write keeps the canonical form. -/
theorem Memory.store_wf (m : Memory) (k : Nat) (v : Cell) (h : m.wf = true) : (m.store k v).wf = true := by
  induction m with
  | nil => by_cases hv : v = Config.unlistedCell <;> simp [Memory.store, hv, Memory.wf]
  | cons e t ih =>
    obtain ⟨a, c⟩ := e
    have h0 := h
    simp only [Memory.wf, Bool.and_eq_true] at h
    by_cases h1 : k < a
    · by_cases hv : v = Config.unlistedCell
      · simp only [Memory.store, h1, hv, if_true]; exact h0
      · have : t.all (fun e => decide (k < e.1)) = true := by
          have hall := h.1.2
          simp only [List.all_eq_true, decide_eq_true_eq] at hall ⊢
          intro e he
          have := hall e he
          omega
        simp only [Memory.store, h1, hv, if_true, if_false]
        simp only [Memory.wf, List.all_cons, Bool.and_eq_true, this, h1, decide_true, h.1.1, h.1.2, h.2,
          bne_iff_ne, ne_eq, hv, not_false_eq_true, and_self]
    · by_cases h2 : k = a
      · subst h2
        by_cases hv : v = Config.unlistedCell
        · simp [Memory.store, hv, h.2]
        · simp only [Memory.store, lt_irrefl, hv, if_true, if_false]
          simp [Memory.wf, hv, h.1.2, h.2]
      · have hk : decide (a < k) = true := by simp only [decide_eq_true_eq]; omega
        simp only [Memory.store, h1, h2, if_false, Memory.wf, Bool.and_eq_true]
        exact ⟨⟨h.1.1, Memory.store_all (P := fun i => decide (a < i)) t k v hk h.1.2⟩, ih h.2⟩

/-- A write below the bound keeps every listed address below it. -/
theorem Memory.store_below (m : Memory) (k n : Nat) (v : Cell) (hk : k < n) (h : m.below n = true) :
    (m.store k v).below n = true :=
  Memory.store_all (P := fun i => decide (i < n)) m k v (by simpa using hk) h

/-- Loading a run of words keeps the canonical form. -/
theorem Memory.storeList_wf (cs : List Cell) (m : Memory) (k : Nat) (h : m.wf = true) :
    (m.storeList k cs).wf = true := by
  induction cs generalizing m k with
  | nil => exact h
  | cons c cs ih => exact ih _ _ (Memory.store_wf m k c h)

/-- Loading a run of words that ends at or below the bound keeps every address below it. -/
theorem Memory.storeList_below (cs : List Cell) (m : Memory) (k n : Nat) (hk : k + cs.length ≤ n)
    (h : m.below n = true) : (m.storeList k cs).below n = true := by
  induction cs generalizing m k with
  | nil => exact h
  | cons c cs ih =>
    simp only [List.length_cons] at hk
    exact ih _ _ (by omega) (Memory.store_below m k n c (by omega) h)

/-- After loading a run of words at `k`, the cells from `k` on read as the words and the others as
before. -/
theorem Memory.cellAt_storeList (cs : List Cell) (m : Memory) (k j : Nat) (h : m.wf = true) :
    (m.storeList k cs).cellAt j =
      if k ≤ j ∧ j < k + cs.length then cs.getD (j - k) 0 else m.cellAt j := by
  induction cs generalizing m k with
  | nil =>
    have : ¬ (k ≤ j ∧ j < k + ([] : List Cell).length) := by simp
    rw [if_neg this]
    rfl
  | cons c cs ih =>
    simp only [Memory.storeList, ih _ _ (Memory.store_wf m k c h), Memory.cellAt_store m k j c h,
      List.length_cons]
    by_cases hj : j = k
    · subst hj
      have h1 : ¬ (j + 1 ≤ j ∧ j < j + 1 + cs.length) := by omega
      have h2 : j ≤ j ∧ j < j + (cs.length + 1) := by omega
      rw [if_neg h1, if_pos rfl, if_pos h2, Nat.sub_self, List.getD_cons_zero]
    · by_cases h1 : k + 1 ≤ j ∧ j < k + 1 + cs.length
      · have h2 : k ≤ j ∧ j < k + (cs.length + 1) := by omega
        have h3 : j - k = (j - (k + 1)) + 1 := by omega
        rw [if_pos h1, if_pos h2, h3, List.getD_cons_succ]
      · have h2 : ¬ (k ≤ j ∧ j < k + (cs.length + 1)) := by omega
        rw [if_neg h1, if_neg h2, if_neg hj]

/-- The memory of the reset state is in canonical form. -/
theorem reset_mem_wf : State.reset.mem.wf = true := rfl

end Sys2Proof.Machine
end

