-- ==== Sys2Proof/Laws/Ops.lean ====
section
/-! SUPPORT. What each shared operation can do, said once: later proofs cite these lemmas and do not unfold
the operations. -/

namespace Sys2Proof.Machine

variable {s t : State}

/-! ### Memory and stack -/

theorem memRead_ok {k : Nat} {c : Cell} : memRead s k = .ok c ↔ k < s.memLen.val ∧ c = s.cell k := by
  unfold memRead; split_ifs with h <;> simp [h, eq_comm]

theorem memRead_error {k : Nat} {e : FaultKind} :
    memRead s k = .error e ↔ s.memLen.val ≤ k ∧ e = .addressOutOfBounds := by
  unfold memRead; split_ifs with h
  · simp; omega
  · simp only [Except.error.injEq, eq_comm]; constructor
    · exact fun h' => ⟨by omega, h'⟩
    · exact fun h' => h'.2

theorem memWrite_ok {k : Nat} {v : Word} :
    memWrite s k v = .ok t ↔ k < s.memLen.val ∧ t = s.writeCell k (v.setWidth 16) := by
  unfold memWrite; split_ifs with h <;> simp [h, eq_comm]

theorem memWrite_error {k : Nat} {v : Word} {e : FaultKind} :
    memWrite s k v = .error e ↔ s.memLen.val ≤ k ∧ e = .addressOutOfBounds := by
  unfold memWrite; split_ifs with h
  · simp; omega
  · simp only [Except.error.injEq, eq_comm]; constructor
    · exact fun h' => ⟨by omega, h'⟩
    · exact fun h' => h'.2

theorem pushWord_ok {v : Word} :
    pushWord s v = .ok t ↔ s.hasRoom = true ∧ t = s.setStack (v :: s.stack) := by
  unfold pushWord; split_ifs with h <;> simp [h, eq_comm]

theorem pushWord_error {v : Word} {e : FaultKind} :
    pushWord s v = .error e ↔ s.hasRoom = false ∧ e = .stackOverflow := by
  unfold pushWord; split_ifs with h <;> simp [h, eq_comm]

/-- A push fits when the stack is unbounded, and when it is finite and not full. -/
theorem hasRoom_iff : s.hasRoom = true ↔ ∀ d, s.stackDepth = some d → s.stack.length < d := by
  unfold State.hasRoom; cases s.stackDepth <;> simp

theorem popWord_some {v : Word} :
    popWord s = some (v, t) ↔ ∃ st, s.stack = v :: st ∧ t = s.setStack st := by
  unfold popWord; cases s.stack <;> simp [eq_comm]

theorem popWord_none : popWord s = none ↔ s.stack = [] := by
  unfold popWord; cases s.stack <;> simp

theorem takeChar_some {c : Word} :
    takeChar s = some (c, t) ↔ ∃ cs, s.input = c :: cs ∧ t = s.setInput cs := by
  unfold takeChar; cases s.input <;> simp [eq_comm]

theorem takeChar_none : takeChar s = none ↔ s.input = [] := by
  unfold takeChar; cases s.input <;> simp

theorem returnAddress_ok {v : Word} :
    returnAddress s = .ok v ↔ s.pc.toNat + 2 ≤ 32767 ∧ v = BitVec.ofNat 15 (s.pc.toNat + 2) := by
  unfold returnAddress; split_ifs with h
  · simp; omega
  · simp only [Except.ok.injEq, eq_comm]; constructor
    · exact fun h' => ⟨by omega, h'⟩
    · exact fun h' => h'.2

theorem returnAddress_error {e : FaultKind} :
    returnAddress s = .error e ↔ 32767 < s.pc.toNat + 2 ∧ e = .outOfRangeValue := by
  unfold returnAddress; split_ifs with h <;> simp [h, eq_comm]

/-! ### Operands -/

theorem regix_ok {a : Operand} {r : RegIx} : regix a = .ok r ↔ a = .reg r := by
  cases a <;> simp [regix]

theorem regix_error {a : Operand} {e : FaultKind} :
    regix a = .error e ↔ a.legal .dst = false ∧ e = .invalidRegister := by
  cases a <;> simp [regix, Operand.legal, eq_comm]

theorem resolve_error {a : Operand} {e : FaultKind} :
    resolve s a = .error e ↔ a.legal .src = false ∧ e = .outOfRangeValue := by
  cases a <;> simp [resolve, Operand.legal, eq_comm]

/-- A source operand resolves exactly when it is legal in its position. -/
theorem resolve_isOk {a : Operand} : (∃ v, resolve s a = .ok v) ↔ a.legal .src = true := by
  cases a <;> simp [resolve, Operand.legal]

theorem wordOfCell_ok {c : Cell} {v : Word} :
    wordOfCell c = .ok v ↔ c.toNat ≤ 32767 ∧ v = c.setWidth 15 := by
  unfold wordOfCell; split_ifs with h
  · simp; omega
  · simp only [Except.ok.injEq, eq_comm]; constructor
    · exact fun h' => ⟨by omega, h'⟩
    · exact fun h' => h'.2

theorem wordOfCell_error {c : Cell} {e : FaultKind} :
    wordOfCell c = .error e ↔ 32767 < c.toNat ∧ e = .outOfRangeValue := by
  unfold wordOfCell; split_ifs with h <;> simp [h, eq_comm]

/-! ### The end of a step -/

theorem raiseFault_next {k : FaultKind} : raiseFault s k = .next t ↔ t = s.takeFault k true := by
  simp [raiseFault, eq_comm]

/-- Everything the end of a step can do. -/
theorem finish_cases {e : Effect} (h : finish s e = .next t) :
    (∃ u npc, e = .commit u npc ∧ npc ≠ s.pc ∧ t = u.setPc npc) ∨
    (∃ u, e = .commit u s.pc ∧ t = s.takeFault .stuckPC true) ∨
    (e = .haltNormal ∧ t = s.haltNormal) ∨
    (∃ k, e = .raise k ∧ t = s.takeFault k true) ∨
    (e = .wait ∧ t = s) := by
  cases e with
  | commit u npc =>
    by_cases hp : npc = s.pc
    · subst hp
      simp only [finish, if_true, raiseFault_next] at h
      exact .inr (.inl ⟨u, rfl, h⟩)
    · simp only [finish, hp, if_false, Host.Outcome.next.injEq] at h
      exact .inl ⟨u, npc, rfl, hp, h.symm⟩
  | haltNormal =>
    simp only [finish, Host.Outcome.next.injEq] at h
    exact .inr (.inr (.inl ⟨rfl, h.symm⟩))
  | raise k =>
    simp only [finish, raiseFault_next] at h
    exact .inr (.inr (.inr (.inl ⟨k, rfl, h⟩)))
  | wait =>
    simp only [finish, Host.Outcome.next.injEq] at h
    exact .inr (.inr (.inr (.inr ⟨rfl, h.symm⟩)))

theorem finish_commit {u : State} {npc : Pc} (h : npc ≠ s.pc) :
    finish s (.commit u npc) = .next (u.setPc npc) := by simp [finish, h]

theorem finish_stuck {u : State} : finish s (.commit u s.pc) = .next (s.takeFault .stuckPC true) := by
  simp [finish, raiseFault]

/-- Falling through an instruction of 1 to 4 cells always moves the pc. -/
theorem fallThrough_ne (n : Nat) (h0 : 0 < n) (h : n ≤ 4) : s.fallThrough n ≠ s.pc := by
  unfold State.fallThrough
  intro he
  have := congrArg BitVec.toNat he
  simp only [BitVec.toNat_add, BitVec.toNat_ofNat] at this
  have := s.pc.isLt
  omega

/-- Phase 4 of a register write that falls through always commits. -/
theorem finish_writeAndGo (r : RegIx) (v : Word) (n : Nat) (h0 : 0 < n) (h : n ≤ 4) :
    finish s (writeAndGo s r v n) = .next ((s.writeReg r v).setPc (s.fallThrough n)) :=
  finish_commit (fallThrough_ne n h0 h)

/-- Any other commit that falls through commits too. -/
theorem finish_fallThrough {u : State} (n : Nat) (h0 : 0 < n) (h : n ≤ 4) :
    finish s (.commit u (s.fallThrough n)) = .next (u.setPc (s.fallThrough n)) :=
  finish_commit (fallThrough_ne n h0 h)

theorem target_toNat (v : Word) : (target v).toNat = v.toNat := by
  have := v.isLt
  simp only [target, BitVec.toNat_setWidth]
  omega

/-- A transfer is to the instruction's own address exactly when the numbers agree. -/
theorem target_eq_pc (v : Word) (p : Pc) : target v = p ↔ v.toNat = p.toNat := by
  rw [← BitVec.toNat_inj, target_toNat]

/-! ### The formats -/

section
variable {a b c : Operand}

/-- Everything a format of one source can do. -/
theorem runS_cases {f : Word → Effect} (h : runS s a f = .next t) :
    (∃ u, resolve s a = .ok u ∧ finish s (f u) = .next t) ∨
    (a.legal .src = false ∧ t = s.takeFault .outOfRangeValue true) := by
  unfold runS at h
  split at h
  · rename_i k hk
    obtain ⟨hl, rfl⟩ := resolve_error.mp hk
    exact .inr ⟨hl, raiseFault_next.mp h⟩
  · rename_i u hu
    exact .inl ⟨u, hu, h⟩

/-- Everything a format of one destination can do. -/
theorem runD_cases {f : RegIx → Effect} (h : runD s a f = .next t) :
    (∃ r, a = .reg r ∧ finish s (f r) = .next t) ∨
    (a.legal .dst = false ∧ t = s.takeFault .invalidRegister true) := by
  unfold runD at h
  split at h
  · rename_i k hk
    obtain ⟨hl, rfl⟩ := regix_error.mp hk
    exact .inr ⟨hl, raiseFault_next.mp h⟩
  · rename_i r hr
    exact .inl ⟨r, regix_ok.mp hr, h⟩

/-- Everything a format of a destination and a source can do. -/
theorem runDS_cases {f : RegIx → Word → Effect} (h : runDS s a b f = .next t) :
    (∃ r u, a = .reg r ∧ resolve s b = .ok u ∧ finish s (f r u) = .next t) ∨
    (∃ k, (k = .invalidRegister ∨ k = .outOfRangeValue) ∧ t = s.takeFault k true) := by
  unfold runDS at h
  split at h
  · rename_i k hk
    exact .inr ⟨k, .inl (regix_error.mp hk).2, raiseFault_next.mp h⟩
  · rename_i r hr
    rcases runS_cases h with ⟨u, hu, hf⟩ | ⟨-, ht⟩
    · exact .inl ⟨r, u, regix_ok.mp hr, hu, hf⟩
    · exact .inr ⟨_, .inr rfl, ht⟩

/-- Everything a format of two sources can do. -/
theorem runSS_cases {f : Word → Word → Effect} (h : runSS s a b f = .next t) :
    (∃ u w, resolve s a = .ok u ∧ resolve s b = .ok w ∧ finish s (f u w) = .next t) ∨
    (∃ k, (k = .invalidRegister ∨ k = .outOfRangeValue) ∧ t = s.takeFault k true) := by
  unfold runSS at h
  split at h
  · rename_i k hk
    exact .inr ⟨k, .inr (resolve_error.mp hk).2, raiseFault_next.mp h⟩
  · rename_i u hu
    rcases runS_cases h with ⟨w, hw, hf⟩ | ⟨-, ht⟩
    · exact .inl ⟨u, w, hu, hw, hf⟩
    · exact .inr ⟨_, .inr rfl, ht⟩

/-- Everything a format of a destination and two sources can do. -/
theorem runDSS_cases {f : RegIx → Word → Word → Effect} (h : runDSS s a b c f = .next t) :
    (∃ r u w, a = .reg r ∧ resolve s b = .ok u ∧ resolve s c = .ok w ∧ finish s (f r u w) = .next t) ∨
    (∃ k, (k = .invalidRegister ∨ k = .outOfRangeValue) ∧ t = s.takeFault k true) := by
  unfold runDSS at h
  split at h
  · rename_i k hk
    exact .inr ⟨k, .inl (regix_error.mp hk).2, raiseFault_next.mp h⟩
  · rename_i r hr
    rcases runSS_cases h with ⟨u, w, hu, hw, hf⟩ | hk
    · exact .inl ⟨r, u, w, regix_ok.mp hr, hu, hw, hf⟩
    · exact .inr hk

/-- With legal operands a format runs phase 4 on the resolved values. -/
theorem runS_ok {f : Word → Effect} {u : Word} (h : resolve s a = .ok u) :
    runS s a f = finish s (f u) := by simp [runS, h]

@[simp] theorem runD_reg {f : RegIx → Effect} {r : RegIx} : runD s (.reg r) f = finish s (f r) := rfl

theorem runDS_ok {f : RegIx → Word → Effect} {r : RegIx} {u : Word} (h : resolve s b = .ok u) :
    runDS s (.reg r) b f = finish s (f r u) := by simp [runDS, regix, runS_ok h]

theorem runSS_ok {f : Word → Word → Effect} {u w : Word} (ha : resolve s a = .ok u)
    (hb : resolve s b = .ok w) : runSS s a b f = finish s (f u w) := by
  simp [runSS, ha, runS_ok hb]

theorem runDSS_ok {f : RegIx → Word → Word → Effect} {r : RegIx} {u w : Word} (hb : resolve s b = .ok u)
    (hc : resolve s c = .ok w) : runDSS s (.reg r) b c f = finish s (f r u w) := by
  simp [runDSS, regix, runSS_ok hb hc]

end

end Sys2Proof.Machine
end

