-- ==== Sys2Proof/Laws/Exec.lean ====
section
/-! SUPPORT. What one instruction, and one step, can do, said once: the commits of each instruction as a
relation, and the inversion of `exec` and `step` into fault, normal halt, wait and commit. Invariants and
frames are proved from these, without unfolding a meaning again. -/

namespace Sys2Proof.Machine

/-! ### Each instruction as its format over its phase 4 -/

section
variable (a b c : Operand) (s : State)

theorem exec_halt : exec .halt s = finish s .haltNormal := rfl
theorem exec_set : exec (.set a b) s = runDS s a b fun r v => writeAndGo s r v 3 := rfl
theorem exec_push : exec (.push a) s = runS s a fun v =>
    match pushWord s v with
    | .error k => .raise k
    | .ok t => .commit t (s.fallThrough 2) := rfl
theorem exec_pop : exec (.pop a) s = runD s a fun r =>
    match popWord s with
    | none => .raise .stackUnderflow
    | some (v, t) => .commit (t.writeReg r v) (s.fallThrough 2) := rfl
theorem exec_eq : exec (.eq a b c) s =
    runDSS s a b c fun r u w => writeAndGo s r (comparisonWord (wordsEqual u w)) 4 := rfl
theorem exec_gt : exec (.gt a b c) s =
    runDSS s a b c fun r u w => writeAndGo s r (comparisonWord (wordGreater u w)) 4 := rfl
theorem exec_jmp : exec (.jmp a) s = runS s a fun t => .commit s (target t) := rfl
theorem exec_jt : exec (.jt a b) s =
    runSS s a b fun u t => .commit s (if isNonZero u then target t else s.fallThrough 3) := rfl
theorem exec_jf : exec (.jf a b) s =
    runSS s a b fun u t => .commit s (if isNonZero u then s.fallThrough 3 else target t) := rfl
theorem exec_add : exec (.add a b c) s =
    runDSS s a b c fun r u w => writeAndGo s r (reduce (u.toNat + w.toNat)) 4 := rfl
theorem exec_mult : exec (.mult a b c) s =
    runDSS s a b c fun r u w => writeAndGo s r (reduce (u.toNat * w.toNat)) 4 := rfl
theorem exec_mod : exec (.mod a b c) s = runDSS s a b c fun r u w =>
    if w.toNat = 0 then .raise .outOfRangeValue else writeAndGo s r (reduce (u.toNat % w.toNat)) 4 := rfl
theorem exec_and : exec (.and a b c) s = runDSS s a b c fun r u w => writeAndGo s r (u &&& w) 4 := rfl
theorem exec_or : exec (.or a b c) s = runDSS s a b c fun r u w => writeAndGo s r (u ||| w) 4 := rfl
theorem exec_not : exec (.not a b) s = runDS s a b fun r u => writeAndGo s r (u ^^^ 0x7FFF#15) 3 := rfl
theorem exec_rmem : exec (.rmem a b) s = runDS s a b fun r addr =>
    match memRead s addr.toNat with
    | .error k => .raise k
    | .ok c =>
      match wordOfCell c with
      | .error k => .raise k
      | .ok v => writeAndGo s r v 3 := rfl
theorem exec_wmem : exec (.wmem a b) s = runSS s a b fun addr v =>
    match memWrite s addr.toNat v with
    | .error k => .raise k
    | .ok t => .commit t (s.fallThrough 3) := rfl
theorem exec_call : exec (.call a) s = runS s a fun t =>
    match returnAddress s with
    | .error k => .raise k
    | .ok ra =>
      match pushWord s ra with
      | .error k => .raise k
      | .ok s' => .commit s' (target t) := rfl
theorem exec_ret : exec .ret s = finish s
    (match popWord s with
    | none => .haltNormal
    | some (t, s') => .commit s' (target t)) := rfl
theorem exec_out : exec (.out a) s = runS s a fun c => .commit (s.sendChar c) (s.fallThrough 2) := rfl
theorem exec_inp : exec (.inp a) s = runD s a fun r =>
    match takeChar s with
    | none => .wait
    | some (c, t) => .commit (t.writeReg r c) (s.fallThrough 2) := rfl
theorem exec_noop : exec .noop s = finish s (.commit s (s.fallThrough 1)) := rfl

end

/-- The writes and the next pc of each instruction that commits: from `s`, instruction `i` gives `u` (its
pc not yet set) and the next pc. -/
inductive Commits (s : State) : Instr → State → Pc → Prop where
  | set {r b v} (hb : resolve s b = .ok v) :
      Commits s (.set (.reg r) b) (s.writeReg r v) (s.fallThrough 3)
  | push {a v} (ha : resolve s a = .ok v) (hr : s.hasRoom = true) :
      Commits s (.push a) (s.setStack (v :: s.stack)) (s.fallThrough 2)
  | pop {r v st} (hs : s.stack = v :: st) :
      Commits s (.pop (.reg r)) ((s.setStack st).writeReg r v) (s.fallThrough 2)
  | eq {r b c u w} (hb : resolve s b = .ok u) (hc : resolve s c = .ok w) :
      Commits s (.eq (.reg r) b c) (s.writeReg r (comparisonWord (wordsEqual u w))) (s.fallThrough 4)
  | gt {r b c u w} (hb : resolve s b = .ok u) (hc : resolve s c = .ok w) :
      Commits s (.gt (.reg r) b c) (s.writeReg r (comparisonWord (wordGreater u w))) (s.fallThrough 4)
  | jmp {a t} (ha : resolve s a = .ok t) : Commits s (.jmp a) s (target t)
  | jt {a b u t} (ha : resolve s a = .ok u) (hb : resolve s b = .ok t) :
      Commits s (.jt a b) s (if isNonZero u then target t else s.fallThrough 3)
  | jf {a b u t} (ha : resolve s a = .ok u) (hb : resolve s b = .ok t) :
      Commits s (.jf a b) s (if isNonZero u then s.fallThrough 3 else target t)
  | add {r b c u w} (hb : resolve s b = .ok u) (hc : resolve s c = .ok w) :
      Commits s (.add (.reg r) b c) (s.writeReg r (reduce (u.toNat + w.toNat))) (s.fallThrough 4)
  | mult {r b c u w} (hb : resolve s b = .ok u) (hc : resolve s c = .ok w) :
      Commits s (.mult (.reg r) b c) (s.writeReg r (reduce (u.toNat * w.toNat))) (s.fallThrough 4)
  | mod {r b c u w} (hb : resolve s b = .ok u) (hc : resolve s c = .ok w) (h0 : w.toNat ≠ 0) :
      Commits s (.mod (.reg r) b c) (s.writeReg r (reduce (u.toNat % w.toNat))) (s.fallThrough 4)
  | and {r b c u w} (hb : resolve s b = .ok u) (hc : resolve s c = .ok w) :
      Commits s (.and (.reg r) b c) (s.writeReg r (u &&& w)) (s.fallThrough 4)
  | or {r b c u w} (hb : resolve s b = .ok u) (hc : resolve s c = .ok w) :
      Commits s (.or (.reg r) b c) (s.writeReg r (u ||| w)) (s.fallThrough 4)
  | not {r b u} (hb : resolve s b = .ok u) :
      Commits s (.not (.reg r) b) (s.writeReg r (u ^^^ 0x7FFF#15)) (s.fallThrough 3)
  | rmem {r b addr} (hb : resolve s b = .ok addr) (hm : addr.toNat < s.memLen.val)
      (hw : (s.cell addr.toNat).toNat ≤ 32767) :
      Commits s (.rmem (.reg r) b) (s.writeReg r ((s.cell addr.toNat).setWidth 15)) (s.fallThrough 3)
  | wmem {a b addr v} (ha : resolve s a = .ok addr) (hb : resolve s b = .ok v)
      (hm : addr.toNat < s.memLen.val) :
      Commits s (.wmem a b) (s.writeCell addr.toNat (v.setWidth 16)) (s.fallThrough 3)
  | call {a t} (ha : resolve s a = .ok t) (hp : s.pc.toNat + 2 ≤ 32767) (hr : s.hasRoom = true) :
      Commits s (.call a) (s.setStack (BitVec.ofNat 15 (s.pc.toNat + 2) :: s.stack)) (target t)
  | ret {t st} (hs : s.stack = t :: st) : Commits s .ret (s.setStack st) (target t)
  | out {a c} (ha : resolve s a = .ok c) : Commits s (.out a) (s.sendChar c) (s.fallThrough 2)
  | inp {r c cs} (hi : s.input = c :: cs) :
      Commits s (.inp (.reg r)) ((s.setInput cs).writeReg r c) (s.fallThrough 2)
  | noop : Commits s .noop s (s.fallThrough 1)

/-- The ways an instruction can end. -/
inductive Ends (s : State) (i : Instr) (t : State) : Prop where
  | fault (k : FaultKind) (hk : k ≠ .noFault) (ht : t = s.takeFault k true)
      (ho : k = .stackOverflow → s.hasRoom = false)
  | halt (hi : i = .halt ∨ (i = .ret ∧ s.stack = [])) (ht : t = s.haltNormal)
  | wait (r : RegIx) (hi : i = .inp (.reg r)) (hin : s.input = []) (ht : t = s)
  | commit (u : State) (npc : Pc) (hc : Commits s i u npc) (hn : npc ≠ s.pc) (ht : t = u.setPc npc)

variable {s t : State} {i : Instr}

/-- An effect that commits as the relation says, or raises, ends as `Ends` says. -/
theorem ends_of_finish {e : Effect} (h : finish s e = .next t)
    (hc : ∀ u npc, e = .commit u npc → Commits s i u npc)
    (hr : ∀ k, e = .raise k → k ≠ .noFault ∧ (k = .stackOverflow → s.hasRoom = false))
    (hh : e = .haltNormal → i = .halt ∨ (i = .ret ∧ s.stack = []))
    (hw : e = .wait → ∃ r, i = .inp (.reg r) ∧ s.input = []) : Ends s i t := by
  rcases finish_cases h with ⟨u, npc, he, hn, ht⟩ | ⟨u, he, ht⟩ | ⟨he, ht⟩ | ⟨k, he, ht⟩ | ⟨he, ht⟩
  · exact .commit u npc (hc u npc he) hn ht
  · exact .fault .stuckPC (by decide) ht (by simp)
  · exact .halt (hh he) ht
  · exact .fault k (hr k he).1 ht (hr k he).2
  · obtain ⟨r, hi, hin⟩ := hw he
    exact .wait r hi hin ht

/-- An operand fault is one of the ways to end. -/
theorem ends_of_operandFault (h : ∃ k, (k = .invalidRegister ∨ k = .outOfRangeValue) ∧ t = s.takeFault k true) :
    Ends s i t := by
  obtain ⟨k, rfl | rfl, ht⟩ := h
  · exact .fault _ (by decide) ht (by simp)
  · exact .fault _ (by decide) ht (by simp)

/-- Every way an instruction can end (R95, R96, R102). -/
theorem exec_ends (h : exec i s = .next t) : Ends s i t := by
  cases i with
  | halt => exact ends_of_finish (e := .haltNormal) h (by simp) (by simp) (by simp) (by simp)
  | noop =>
    exact ends_of_finish (e := .commit s (s.fallThrough 1)) h (by rintro u npc ⟨⟩; exact .noop) (by simp) (by simp) (by simp)
  | ret =>
    refine ends_of_finish h ?_ ?_ ?_ ?_
    · intro u npc he
      split at he
      · simp at he
      · rename_i v u' hp
        obtain ⟨st, hs, rfl⟩ := popWord_some.mp hp
        cases he
        exact .ret hs
    · intro k he; split at he <;> simp at he
    · intro he
      split at he
      · rename_i hp; exact .inr ⟨rfl, popWord_none.mp hp⟩
      · simp at he
    · intro he; split at he <;> simp at he
  | set a b =>
    rcases runDS_cases h with ⟨r, u, rfl, hu, hf⟩ | hk
    · exact ends_of_finish hf (by rintro _ _ ⟨⟩; exact .set hu) (by simp [writeAndGo])
        (by simp [writeAndGo]) (by simp [writeAndGo])
    · exact ends_of_operandFault hk
  | not a b =>
    rcases runDS_cases h with ⟨r, u, rfl, hu, hf⟩ | hk
    · exact ends_of_finish hf (by rintro _ _ ⟨⟩; exact .not hu) (by simp [writeAndGo])
        (by simp [writeAndGo]) (by simp [writeAndGo])
    · exact ends_of_operandFault hk
  | eq a b c =>
    rcases runDSS_cases h with ⟨r, u, w, rfl, hu, hw, hf⟩ | hk
    · exact ends_of_finish hf (by rintro _ _ ⟨⟩; exact .eq hu hw) (by simp [writeAndGo])
        (by simp [writeAndGo]) (by simp [writeAndGo])
    · exact ends_of_operandFault hk
  | gt a b c =>
    rcases runDSS_cases h with ⟨r, u, w, rfl, hu, hw, hf⟩ | hk
    · exact ends_of_finish hf (by rintro _ _ ⟨⟩; exact .gt hu hw) (by simp [writeAndGo])
        (by simp [writeAndGo]) (by simp [writeAndGo])
    · exact ends_of_operandFault hk
  | add a b c =>
    rcases runDSS_cases h with ⟨r, u, w, rfl, hu, hw, hf⟩ | hk
    · exact ends_of_finish hf (by rintro _ _ ⟨⟩; exact .add hu hw) (by simp [writeAndGo])
        (by simp [writeAndGo]) (by simp [writeAndGo])
    · exact ends_of_operandFault hk
  | mult a b c =>
    rcases runDSS_cases h with ⟨r, u, w, rfl, hu, hw, hf⟩ | hk
    · exact ends_of_finish hf (by rintro _ _ ⟨⟩; exact .mult hu hw) (by simp [writeAndGo])
        (by simp [writeAndGo]) (by simp [writeAndGo])
    · exact ends_of_operandFault hk
  | mod a b c =>
    rcases runDSS_cases h with ⟨r, u, w, rfl, hu, hw, hf⟩ | hk
    · by_cases h0 : w.toNat = 0
      · simp only [h0, if_true] at hf
        exact ends_of_finish hf (by simp) (by rintro k ⟨⟩; simp) (by simp) (by simp)
      · simp only [h0, if_false] at hf
        exact ends_of_finish hf (by rintro _ _ ⟨⟩; exact .mod hu hw h0) (by simp [writeAndGo])
          (by simp [writeAndGo]) (by simp [writeAndGo])
    · exact ends_of_operandFault hk
  | and a b c =>
    rcases runDSS_cases h with ⟨r, u, w, rfl, hu, hw, hf⟩ | hk
    · exact ends_of_finish hf (by rintro _ _ ⟨⟩; exact .and hu hw) (by simp [writeAndGo])
        (by simp [writeAndGo]) (by simp [writeAndGo])
    · exact ends_of_operandFault hk
  | or a b c =>
    rcases runDSS_cases h with ⟨r, u, w, rfl, hu, hw, hf⟩ | hk
    · exact ends_of_finish hf (by rintro _ _ ⟨⟩; exact .or hu hw) (by simp [writeAndGo])
        (by simp [writeAndGo]) (by simp [writeAndGo])
    · exact ends_of_operandFault hk
  | push a =>
    rcases runS_cases h with ⟨v, hv, hf⟩ | ⟨-, ht⟩
    · refine ends_of_finish hf ?_ ?_ ?_ ?_
      · intro u npc he
        split at he
        · simp at he
        · rename_i u' hp
          obtain ⟨hr, rfl⟩ := pushWord_ok.mp hp
          cases he
          exact .push hv hr
      · intro k he
        split at he
        · rename_i k' hp
          obtain ⟨hr, rfl⟩ := pushWord_error.mp hp
          cases he
          exact ⟨by decide, fun _ => hr⟩
        · simp at he
      · intro he; split at he <;> simp at he
      · intro he; split at he <;> simp at he
    · exact ends_of_operandFault ⟨_, .inr rfl, ht⟩
  | pop a =>
    rcases runD_cases h with ⟨r, rfl, hf⟩ | ⟨-, ht⟩
    · refine ends_of_finish hf ?_ ?_ ?_ ?_
      · intro u npc he
        split at he
        · simp at he
        · rename_i v u' hp
          obtain ⟨st, hs, rfl⟩ := popWord_some.mp hp
          cases he
          exact .pop hs
      · intro k he
        split at he
        · cases he; simp
        · simp at he
      · intro he; split at he <;> simp at he
      · intro he; split at he <;> simp at he
    · exact ends_of_operandFault ⟨_, .inl rfl, ht⟩
  | jmp a =>
    rcases runS_cases h with ⟨v, hv, hf⟩ | ⟨-, ht⟩
    · exact ends_of_finish hf (by rintro _ _ ⟨⟩; exact .jmp hv) (by simp) (by simp) (by simp)
    · exact ends_of_operandFault ⟨_, .inr rfl, ht⟩
  | jt a b =>
    rcases runSS_cases h with ⟨u, w, hu, hw, hf⟩ | hk
    · exact ends_of_finish hf (by rintro _ _ ⟨⟩; exact .jt hu hw) (by simp) (by simp) (by simp)
    · exact ends_of_operandFault hk
  | jf a b =>
    rcases runSS_cases h with ⟨u, w, hu, hw, hf⟩ | hk
    · exact ends_of_finish hf (by rintro _ _ ⟨⟩; exact .jf hu hw) (by simp) (by simp) (by simp)
    · exact ends_of_operandFault hk
  | call a =>
    rcases runS_cases h with ⟨v, hv, hf⟩ | ⟨-, ht⟩
    · refine ends_of_finish hf ?_ ?_ ?_ ?_
      · intro u npc he
        split at he
        · simp at he
        · rename_i ra hra
          obtain ⟨hp, rfl⟩ := returnAddress_ok.mp hra
          split at he
          · simp at he
          · rename_i u' hpu
            obtain ⟨hr, rfl⟩ := pushWord_ok.mp hpu
            cases he
            exact .call hv hp hr
      · intro k he
        split at he
        · rename_i k' hra
          obtain ⟨-, rfl⟩ := returnAddress_error.mp hra
          cases he; simp
        · split at he
          · rename_i k' hpu
            obtain ⟨hr, rfl⟩ := pushWord_error.mp hpu
            cases he
            exact ⟨by decide, fun _ => hr⟩
          · simp at he
      · intro he; split at he <;> (try split at he) <;> simp at he
      · intro he; split at he <;> (try split at he) <;> simp at he
    · exact ends_of_operandFault ⟨_, .inr rfl, ht⟩
  | rmem a b =>
    rcases runDS_cases h with ⟨r, addr, rfl, hu, hf⟩ | hk
    · refine ends_of_finish hf ?_ ?_ ?_ ?_
      · intro u npc he
        split at he
        · simp at he
        · rename_i c hc
          obtain ⟨hm, rfl⟩ := memRead_ok.mp hc
          split at he
          · simp at he
          · rename_i v hv
            obtain ⟨hw, rfl⟩ := wordOfCell_ok.mp hv
            cases he
            exact .rmem hu hm hw
      · intro k he
        split at he
        · rename_i k' hc
          obtain ⟨-, rfl⟩ := memRead_error.mp hc
          cases he; simp
        · split at he
          · rename_i k' hv
            obtain ⟨-, rfl⟩ := wordOfCell_error.mp hv
            cases he; simp
          · simp [writeAndGo] at he
      · intro he; split at he <;> (try split at he) <;> simp [writeAndGo] at he
      · intro he; split at he <;> (try split at he) <;> simp [writeAndGo] at he
    · exact ends_of_operandFault hk
  | wmem a b =>
    rcases runSS_cases h with ⟨addr, v, hu, hv, hf⟩ | hk
    · refine ends_of_finish hf ?_ ?_ ?_ ?_
      · intro u npc he
        split at he
        · simp at he
        · rename_i u' hc
          obtain ⟨hm, rfl⟩ := memWrite_ok.mp hc
          cases he
          exact .wmem hu hv hm
      · intro k he
        split at he
        · rename_i k' hc
          obtain ⟨-, rfl⟩ := memWrite_error.mp hc
          cases he; simp
        · simp at he
      · intro he; split at he <;> simp at he
      · intro he; split at he <;> simp at he
    · exact ends_of_operandFault hk
  | out a =>
    rcases runS_cases h with ⟨v, hv, hf⟩ | ⟨-, ht⟩
    · exact ends_of_finish hf (by rintro _ _ ⟨⟩; exact .out hv) (by simp) (by simp) (by simp)
    · exact ends_of_operandFault ⟨_, .inr rfl, ht⟩
  | inp a =>
    rcases runD_cases h with ⟨r, rfl, hf⟩ | ⟨-, ht⟩
    · refine ends_of_finish hf ?_ ?_ ?_ ?_
      · intro u npc he
        split at he
        · simp at he
        · rename_i c u' hp
          obtain ⟨cs, hs, rfl⟩ := takeChar_some.mp hp
          cases he
          exact .inp hs
      · intro k he; split at he <;> simp at he
      · intro he; split at he <;> simp at he
      · intro he
        split at he
        · rename_i hp; exact ⟨r, rfl, takeChar_none.mp hp⟩
        · simp at he
    · exact ends_of_operandFault ⟨_, .inl rfl, ht⟩

/-! ### Fetch and step -/

/-- The instruction at the pc lies wholly below `MEMLEN`, and its cells are those of memory. -/
theorem cellsFrom_succ (s : State) (k n : Nat) :
    s.cellsFrom k (n + 1) = if k < s.memLen.val then s.cell k :: s.cellsFrom (k + 1) n else [] := rfl

/-- Every way a running core's step can end: the instruction fetched ends as `Ends` says, or the fetch
gives no instruction and its fault is taken. -/
theorem step_running_cases (hs : s.status = .running) (h : step s = .next t) :
    (∃ i, fetch s = .ok i ∧ Ends s i t) ∨
    (fetch s = .error .noOpcode ∧ t = s.takeFault .addressOutOfBounds false) ∨
    (∃ op, fetch s = .error (.illegalOpcode op) ∧ t = s.takeFault .illegalOpcode true) ∨
    (∃ op, fetch s = .error (.missingOperand op) ∧ t = s.takeFault .addressOutOfBounds true) := by
  unfold step at h
  rw [hs] at h
  simp only at h
  cases hf : fetch s with
  | ok i => rw [hf] at h; exact .inl ⟨i, rfl, exec_ends h⟩
  | error e =>
    rw [hf] at h
    cases e with
    | noOpcode =>
      simp only [fetchFault, Host.Outcome.next.injEq] at h
      exact .inr (.inl ⟨rfl, h.symm⟩)
    | illegalOpcode op => exact .inr (.inr (.inl ⟨op, rfl, raiseFault_next.mp h⟩))
    | missingOperand op => exact .inr (.inr (.inr ⟨op, rfl, raiseFault_next.mp h⟩))

/-- A halted core does nothing. -/
theorem step_halted (hs : s.status ≠ .running) : step s = .next s := by
  unfold step
  cases h : s.status
  · exact absurd h hs
  · rfl
  · rfl

end Sys2Proof.Machine
end

