-- ==== Sys2Proof/Laws/Fetch.lean ====
section
/-! SUPPORT. The laws of fetching: which cells a fetch reads, when it finds no opcode, and where the
instruction it finds ends. -/

namespace Sys2Proof.Machine

variable {s : State}

theorem cellsFrom_length_le (s : State) (k n : Nat) : (s.cellsFrom k n).length ≤ n := by
  induction n generalizing k with
  | zero => simp [State.cellsFrom]
  | succ n ih =>
    rw [cellsFrom_succ]
    split_ifs
    · have := ih (k + 1); simp; omega
    · simp

/-- The cells read from `k` all lie below `MEMLEN`. -/
theorem cellsFrom_bound (s : State) (k n : Nat) (h : 0 < (s.cellsFrom k n).length) :
    k + (s.cellsFrom k n).length ≤ s.memLen.val := by
  induction n generalizing k with
  | zero => simp [State.cellsFrom] at h
  | succ n ih =>
    rw [cellsFrom_succ] at h ⊢
    split_ifs at h ⊢ with hk
    · by_cases h0 : 0 < (s.cellsFrom (k + 1) n).length
      · have := ih (k + 1) h0; simp; omega
      · simp; omega
    · simp at h

/-- Where all cells exist, the fetch reads them. -/
theorem cellsFrom_full (s : State) (k n : Nat) (h : k + n ≤ s.memLen.val) :
    s.cellsFrom k n = (List.range n).map fun j => s.cell (k + j) := by
  induction n generalizing k with
  | zero => rfl
  | succ n ih =>
    rw [cellsFrom_succ, if_pos (by omega), ih (k + 1) (by omega), List.range_succ_eq_map, List.map_cons,
      List.map_map, Nat.add_zero]
    congr 1
    apply List.map_congr_left
    intro j _
    show s.cell (k + 1 + j) = s.cell (k + (j + 1))
    congr 1; omega

/-- What taking operands answers, with how many cells it used. -/
theorem takeOperands_ok {op : Cell} {sh : Shape} {r r' : List Cell} {i : Instr}
    (h : takeOperands op sh r = .ok (i, r')) : r.length = sh.count + r'.length := by
  unfold takeOperands at h
  split at h <;> simp only [Except.ok.injEq, Prod.mk.injEq, reduceCtorEq] at h
  all_goals
    obtain ⟨-, rfl⟩ := h
    simp [Shape.count]; try omega

/-- Taking operands fails only for want of cells. -/
theorem takeOperands_error {op : Cell} {sh : Shape} {r : List Cell} {e : DecodeError}
    (h : takeOperands op sh r = .error e) : e = .missingOperand op ∧ r.length < sh.count := by
  cases sh with
  | zero i => simp [takeOperands] at h
  | one f =>
    match r, h with
    | [], h => exact ⟨by simpa [takeOperands, eq_comm] using h, by simp [Shape.count]⟩
    | a :: r, h => simp [takeOperands] at h
  | two f =>
    match r, h with
    | [], h => exact ⟨by simpa [takeOperands, eq_comm] using h, by simp [Shape.count]⟩
    | [a], h => exact ⟨by simpa [takeOperands, eq_comm] using h, by simp [Shape.count]⟩
    | a :: b :: r, h => simp [takeOperands] at h
  | three f =>
    match r, h with
    | [], h => exact ⟨by simpa [takeOperands, eq_comm] using h, by simp [Shape.count]⟩
    | [a], h => exact ⟨by simpa [takeOperands, eq_comm] using h, by simp [Shape.count]⟩
    | [a, b], h => exact ⟨by simpa [takeOperands, eq_comm] using h, by simp [Shape.count]⟩
    | a :: b :: c :: r, h => simp [takeOperands] at h

/-- The opcode map knows exactly the values 0 to 21 (R72, R78). -/
theorem opcodeMap_isSome {n : Nat} : (∃ sh, opcodeMap n = some sh) ↔ n ≤ 21 := by
  constructor
  · rintro ⟨sh, h⟩
    unfold opcodeMap at h
    split at h <;> first | omega | simp at h
  · intro h
    interval_cases n <;> exact ⟨_, rfl⟩

/-- An instruction read from the front of a run of cells takes its opcode cell and its operand cells. -/
theorem decode_ok_length {cs r : List Cell} {i : Instr} (h : decode cs = .ok (i, r)) :
    cs.length = 1 + i.operandCount + r.length := by
  unfold decode at h
  split at h
  · simp at h
  · rename_i op t
    split at h
    · simp at h
    · rename_i sh hsh
      have hl := takeOperands_ok h
      have : sh.count = i.operandCount := by
        unfold opcodeMap at hsh
        split at hsh <;> simp only [Option.some.injEq, reduceCtorEq] at hsh <;> subst hsh <;>
          unfold takeOperands at h <;> split at h <;>
          simp only [Except.ok.injEq, Prod.mk.injEq, reduceCtorEq, Shape.zero.injEq, Shape.one.injEq,
            Shape.two.injEq, Shape.three.injEq] at * <;>
          · obtain ⟨rfl, -⟩ := h
            simp_all [Shape.count, Instr.operandCount, Instr.operands]
            try (subst_vars; rfl)
      simp only [List.length_cons]
      omega

/-- A fetched instruction lies wholly below `MEMLEN` (R92). -/
theorem fetch_ok_bound {i : Instr} (h : fetch s = .ok i) :
    s.pc.toNat + 1 + i.operandCount ≤ s.memLen.val := by
  unfold fetch at h
  split at h
  · rename_i j r hd
    simp only [Except.ok.injEq] at h
    subst h
    have hl := decode_ok_length hd
    have := cellsFrom_bound s s.pc.toNat 4 (by omega)
    omega
  · simp at h

/-- A fetch finds no opcode cell exactly when the pc is at or beyond `MEMLEN` (R91). -/
theorem fetch_noOpcode : fetch s = .error .noOpcode ↔ s.memLen.val ≤ s.pc.toNat := by
  unfold fetch
  rw [cellsFrom_succ]
  split_ifs with h
  · constructor
    · intro hf
      exfalso
      split at hf
      · simp at hf
      · rename_i e hd
        simp only [Except.error.injEq] at hf
        subst hf
        simp only [decode] at hd
        split at hd
        · simp at hd
        · rename_i sh _
          unfold takeOperands at hd
          split at hd <;> simp at hd
    · intro; omega
  · simp [decode]; omega

/-- Any other fetch error leaves an opcode cell below `MEMLEN`. -/
theorem fetch_error_bound {e : DecodeError} (h : fetch s = .error e) (he : e ≠ .noOpcode) :
    s.pc.toNat < s.memLen.val := by
  by_contra hc
  rw [fetch_noOpcode.mpr (by omega)] at h
  cases h
  exact he rfl

end Sys2Proof.Machine
end

