-- ==== Sys2Proof/Laws/PerInstr.lean ====
section
/-! SUPPORT. Statements made for every instruction, one lemma per constructor. -/

namespace Sys2Proof.Laws.CellCount

/-- The opcode map knows the instruction's opcode with the instruction's own operand count, and the
encoding is one opcode cell and that many operand cells, 1 to 4 cells in all (30_encoding.md rules R70,
R75, R76). -/
def Statement (i : Instr) : Prop :=
  (∃ sh, opcodeMap i.opcode.toNat = some sh ∧ sh.count = i.operandCount) ∧
    (encode i).length = 1 + i.operandCount ∧ i.operandCount ≤ 3

end Sys2Proof.Laws.CellCount

theorem Sys2Proof.Laws.CellCount.halt : Sys2Proof.Laws.CellCount.Statement .halt :=
  ⟨⟨_, rfl, rfl⟩, rfl, Nat.le_of_ble_eq_true rfl⟩

theorem Sys2Proof.Laws.CellCount.set (a b : Sys2Proof.Operand) : Sys2Proof.Laws.CellCount.Statement (.set a b) :=
  ⟨⟨_, rfl, rfl⟩, rfl, Nat.le_of_ble_eq_true rfl⟩

theorem Sys2Proof.Laws.CellCount.push (a : Sys2Proof.Operand) : Sys2Proof.Laws.CellCount.Statement (.push a) :=
  ⟨⟨_, rfl, rfl⟩, rfl, Nat.le_of_ble_eq_true rfl⟩

theorem Sys2Proof.Laws.CellCount.pop (a : Sys2Proof.Operand) : Sys2Proof.Laws.CellCount.Statement (.pop a) :=
  ⟨⟨_, rfl, rfl⟩, rfl, Nat.le_of_ble_eq_true rfl⟩

theorem Sys2Proof.Laws.CellCount.eq (a b c : Sys2Proof.Operand) : Sys2Proof.Laws.CellCount.Statement (.eq a b c) :=
  ⟨⟨_, rfl, rfl⟩, rfl, Nat.le_of_ble_eq_true rfl⟩

theorem Sys2Proof.Laws.CellCount.gt (a b c : Sys2Proof.Operand) : Sys2Proof.Laws.CellCount.Statement (.gt a b c) :=
  ⟨⟨_, rfl, rfl⟩, rfl, Nat.le_of_ble_eq_true rfl⟩

theorem Sys2Proof.Laws.CellCount.jmp (a : Sys2Proof.Operand) : Sys2Proof.Laws.CellCount.Statement (.jmp a) :=
  ⟨⟨_, rfl, rfl⟩, rfl, Nat.le_of_ble_eq_true rfl⟩

theorem Sys2Proof.Laws.CellCount.jt (a b : Sys2Proof.Operand) : Sys2Proof.Laws.CellCount.Statement (.jt a b) :=
  ⟨⟨_, rfl, rfl⟩, rfl, Nat.le_of_ble_eq_true rfl⟩

theorem Sys2Proof.Laws.CellCount.jf (a b : Sys2Proof.Operand) : Sys2Proof.Laws.CellCount.Statement (.jf a b) :=
  ⟨⟨_, rfl, rfl⟩, rfl, Nat.le_of_ble_eq_true rfl⟩

theorem Sys2Proof.Laws.CellCount.add (a b c : Sys2Proof.Operand) : Sys2Proof.Laws.CellCount.Statement (.add a b c) :=
  ⟨⟨_, rfl, rfl⟩, rfl, Nat.le_of_ble_eq_true rfl⟩

theorem Sys2Proof.Laws.CellCount.mult (a b c : Sys2Proof.Operand) : Sys2Proof.Laws.CellCount.Statement (.mult a b c) :=
  ⟨⟨_, rfl, rfl⟩, rfl, Nat.le_of_ble_eq_true rfl⟩

theorem Sys2Proof.Laws.CellCount.mod (a b c : Sys2Proof.Operand) : Sys2Proof.Laws.CellCount.Statement (.mod a b c) :=
  ⟨⟨_, rfl, rfl⟩, rfl, Nat.le_of_ble_eq_true rfl⟩

theorem Sys2Proof.Laws.CellCount.and (a b c : Sys2Proof.Operand) : Sys2Proof.Laws.CellCount.Statement (.and a b c) :=
  ⟨⟨_, rfl, rfl⟩, rfl, Nat.le_of_ble_eq_true rfl⟩

theorem Sys2Proof.Laws.CellCount.or (a b c : Sys2Proof.Operand) : Sys2Proof.Laws.CellCount.Statement (.or a b c) :=
  ⟨⟨_, rfl, rfl⟩, rfl, Nat.le_of_ble_eq_true rfl⟩

theorem Sys2Proof.Laws.CellCount.not (a b : Sys2Proof.Operand) : Sys2Proof.Laws.CellCount.Statement (.not a b) :=
  ⟨⟨_, rfl, rfl⟩, rfl, Nat.le_of_ble_eq_true rfl⟩

theorem Sys2Proof.Laws.CellCount.rmem (a b : Sys2Proof.Operand) : Sys2Proof.Laws.CellCount.Statement (.rmem a b) :=
  ⟨⟨_, rfl, rfl⟩, rfl, Nat.le_of_ble_eq_true rfl⟩

theorem Sys2Proof.Laws.CellCount.wmem (a b : Sys2Proof.Operand) : Sys2Proof.Laws.CellCount.Statement (.wmem a b) :=
  ⟨⟨_, rfl, rfl⟩, rfl, Nat.le_of_ble_eq_true rfl⟩

theorem Sys2Proof.Laws.CellCount.call (a : Sys2Proof.Operand) : Sys2Proof.Laws.CellCount.Statement (.call a) :=
  ⟨⟨_, rfl, rfl⟩, rfl, Nat.le_of_ble_eq_true rfl⟩

theorem Sys2Proof.Laws.CellCount.ret : Sys2Proof.Laws.CellCount.Statement .ret :=
  ⟨⟨_, rfl, rfl⟩, rfl, Nat.le_of_ble_eq_true rfl⟩

theorem Sys2Proof.Laws.CellCount.out (a : Sys2Proof.Operand) : Sys2Proof.Laws.CellCount.Statement (.out a) :=
  ⟨⟨_, rfl, rfl⟩, rfl, Nat.le_of_ble_eq_true rfl⟩

theorem Sys2Proof.Laws.CellCount.inp (a : Sys2Proof.Operand) : Sys2Proof.Laws.CellCount.Statement (.inp a) :=
  ⟨⟨_, rfl, rfl⟩, rfl, Nat.le_of_ble_eq_true rfl⟩

theorem Sys2Proof.Laws.CellCount.noop : Sys2Proof.Laws.CellCount.Statement .noop :=
  ⟨⟨_, rfl, rfl⟩, rfl, Nat.le_of_ble_eq_true rfl⟩
end

