-- ==== Sys2Proof/Tests/Slice0.lean ====
section
/-! SUPPORT. The model's own tests. Expected results are those of spec/95_test_vectors.md (its section or
vector is named) or read from the rule named. Part 1: well-formedness; part 2: words written out from the
opcode table, decoded and encoded; part 3: one step each; part 4: memory, host port, text; part 5: for every
statement with hypotheses, a witness that meets them, clause by clause at the ends of its range. -/

namespace Sys2Proof.Tests

open Sys2Proof Sys2Proof.Machine Sys2Proof.Machine.Claims

/-! ### Helpers -/

/-- The machine after reset with the cells loaded from address 0. -/
def mach (cells : List Cell) : State :=
  { State.reset with mem := Memory.storeList [] 0 cells, memLen := memLenOf cells.length }

/-- The same with register `a` holding `v`. -/
def machA (v : Word) (cells : List Cell) : State := (mach cells).writeReg 0 v

/-- The same with a stack, top first. -/
def machS (st : List Word) (cells : List Cell) : State := (mach cells).setStack st

/-- The state an outcome holds; the reset state where there is none. -/
def stateOf : StepOutcome → State
  | .next t => t
  | .fault _ => State.reset
  | .refused _ => State.reset

/-- The state after one step. -/
def after (s : State) : State := stateOf (step s)

/-- The fault record as the test vectors write it: kind, address, opcode, opcode valid; none when the run
has not ended by a fault. -/
def record (s : State) : Option (FaultKind × Nat × Nat × Bool) :=
  if s.status = .haltedFault then some (s.fkind, s.faddr.toNat, s.fop.toNat, s.fopv) else none

/-! ### 1. Well-formedness: an ill-formed term for each check -/

theorem test_wf_accepts : (Instr.add (.reg 7) (.lit 32767) (.reg 0)).wellFormed = true := by decide
theorem test_wf_accepts_no_operand : Instr.ret.wellFormed = true := by decide
theorem test_wf_refuses_literal_destination : (Instr.set (.lit 5) (.lit 7)).wellFormed = false := by decide
theorem test_wf_refuses_invalid_destination : (Instr.pop (.invalid 0)).wellFormed = false := by decide
theorem test_wf_refuses_invalid_source : (Instr.push (.invalid 0)).wellFormed = false := by decide
theorem test_wf_refuses_invalid_second : (Instr.jt (.lit 0) (.invalid 7)).wellFormed = false := by decide
theorem test_wf_refuses_invalid_third :
    (Instr.add (.reg 0) (.lit 1) (.invalid 32759)).wellFormed = false := by decide
theorem test_wf_role_dst_literal : Operand.legal .dst (.lit 0) = false := by decide
theorem test_wf_role_dst_invalid : Operand.legal .dst (.invalid 0) = false := by decide
theorem test_wf_role_src_invalid : Operand.legal .src (.invalid 0) = false := by decide

/-! ### 2. Decoding and encoding, on words written out from the opcode table (30_encoding.md R73, R76) -/

theorem test_decode_halt : decode [0x0000#16] = .ok (.halt, []) := by rfl
theorem test_decode_set :
    decode [0b0000000000000001#16, 0b1000000000000111#16, 0b0111111111111111#16] =
      .ok (.set (.reg 7) (.lit 32767), []) := by rfl
theorem test_decode_push : decode [2, 32776] = .ok (.push (.invalid 0), []) := by rfl
theorem test_decode_pop : decode [3, 32769] = .ok (.pop (.reg 1), []) := by rfl
theorem test_decode_eq :
    decode [4, 32769, 32768, 10] = .ok (.eq (.reg 1) (.reg 0) (.lit 10), []) := by rfl
theorem test_decode_gt :
    decode [5, 32768, 5, 3] = .ok (.gt (.reg 0) (.lit 5) (.lit 3), []) := by rfl
theorem test_decode_jmp :
    decode [0b0000000000000110#16, 0b0000000000000011#16, 22] = .ok (.jmp (.lit 3), [22]) := by rfl
theorem test_decode_jt : decode [7, 32768, 6] = .ok (.jt (.reg 0) (.lit 6), []) := by rfl
theorem test_decode_jf : decode [8, 0, 32770] = .ok (.jf (.lit 0) (.reg 2), []) := by rfl
theorem test_decode_add :
    decode [0b0000000000001001#16, 0b1000000000000001#16, 0b1000000000000001#16, 0b1000000000000000#16] =
      .ok (.add (.reg 1) (.reg 1) (.reg 0), []) := by rfl
theorem test_decode_mult :
    decode [10, 32768, 32768, 6] = .ok (.mult (.reg 0) (.reg 0) (.lit 6), []) := by rfl
theorem test_decode_mod :
    decode [11, 32773, 17, 5] = .ok (.mod (.reg 5) (.lit 17) (.lit 5), []) := by rfl
theorem test_decode_and :
    decode [12, 32770, 12, 10] = .ok (.and (.reg 2) (.lit 12) (.lit 10), []) := by rfl
theorem test_decode_or :
    decode [13, 32771, 12, 10] = .ok (.or (.reg 3) (.lit 12) (.lit 10), []) := by rfl
theorem test_decode_not : decode [14, 32772, 0] = .ok (.not (.reg 4) (.lit 0), []) := by rfl
theorem test_decode_rmem : decode [15, 32768, 15] = .ok (.rmem (.reg 0) (.lit 15), []) := by rfl
theorem test_decode_wmem :
    decode [0b0000000000010000#16, 0b0000000000001101#16, 0b1000000000000000#16] =
      .ok (.wmem (.lit 13) (.reg 0), []) := by rfl
theorem test_decode_call : decode [17, 11] = .ok (.call (.lit 11), []) := by rfl
theorem test_decode_ret : decode [0b0000000000010010#16] = .ok (.ret, []) := by rfl
theorem test_decode_out : decode [19, 65, 19, 66, 0] = .ok (.out (.lit 65), [19, 66, 0]) := by rfl
theorem test_decode_in : decode [20, 32774] = .ok (.inp (.reg 6), []) := by rfl
theorem test_decode_noop : decode [21] = .ok (.noop, []) := by rfl

theorem test_decode_refuses_22 : decode [22, 0, 0, 0] = .error (.illegalOpcode 22) := by rfl
theorem test_decode_refuses_65535 : decode [65535] = .error (.illegalOpcode 65535) := by rfl
theorem test_decode_refuses_register_as_opcode : decode [32768] = .error (.illegalOpcode 32768) := by rfl
theorem test_decode_refuses_cut_off : decode [1, 32768] = .error (.missingOperand 1) := by rfl
theorem test_decode_refuses_nothing : decode [] = .error .noOpcode := by rfl

theorem test_encode_add :
    encode (.add (.reg 1) (.reg 1) (.reg 0)) = [9, 32769, 32769, 32768] := by decide
theorem test_encode_wmem : encode (.wmem (.lit 13) (.reg 0)) = [16, 13, 32768] := by decide
theorem test_encode_invalid : encode (.push (.invalid 32759)) = [2, 65535] := by decide
/-- The table's numbering: cell 0 in bits 15 to 0, cell 1 in bits 31 to 16, cell 2 in bits 47 to 32. -/
theorem test_table_word_set :
    decodeTableWord 48 0x7FFF80070001 = some (.set (.reg 7) (.lit 32767)) := by rfl
theorem test_table_word_short : decodeTableWord 16 0xFFFF0002 = some (.push (.lit 0)) := by rfl
theorem test_table_word_illegal : decodeTableWord 16 22 = none := by rfl

/-! ### 3. One step each -/

/-- Vectors 2.1. -/
theorem test_set :
    (after (mach [1, 32775, 32767, 0])).x[7] = 32767 ∧ (after (mach [1, 32775, 32767, 0])).pc = 3 := by decide
/-- Vectors 2.1: a literal destination. -/
theorem test_set_literal_destination :
    record (after (mach [1, 5, 7])) = some (.invalidRegister, 0, 1, true) := by decide
/-- Vectors 2.1: the pushed Word is the register's, on top of what was there. -/
theorem test_push : (after ((machA 9 [2, 32768, 0]).setStack [4])).stack = [9, 4] := by decide
/-- Vectors 2.1. -/
theorem test_push_invalid :
    record (after (mach [2, 32776])) = some (.outOfRangeValue, 0, 2, true) := by decide
/-- Vectors 2.1: `S = [9, 4]` bottom first. -/
theorem test_pop :
    (after (machS [4, 9] [3, 32769, 0])).x[1] = 4 ∧ (after (machS [4, 9] [3, 32769, 0])).stack = [9] := by
  decide
/-- Vectors 2.1: with an empty stack and a literal destination the destination is the fault. -/
theorem test_pop_faults :
    record (after (mach [3, 32768])) = some (.stackUnderflow, 0, 3, true) ∧
    record (after (mach [3, 5])) = some (.invalidRegister, 0, 3, true) := by decide
/-- Vectors 2.2: the destination is also a source. -/
theorem test_eq : (after (machA 7 [4, 32768, 32768, 7])).x[0] = 1 := by decide
/-- Vectors 2.2. -/
theorem test_eq_differs : (after (machA 7 [4, 32768, 5, 32767])).x[0] = 0 := by decide
/-- Vectors 2.2: 32767 is above 0, unsigned. -/
theorem test_gt : (after (mach [5, 32768, 32767, 0])).x[0] = 1 := by decide
/-- Vectors 2.2. -/
theorem test_gt_equal : (after (machA 7 [5, 32768, 32768, 7])).x[0] = 0 := by decide
/-- Vectors 2.3. -/
theorem test_jmp : (after (mach [6, 3, 22, 0])).pc = 3 ∧ (after (mach [6, 100])).pc = 100 := by decide
/-- Vectors 2.3, S4. -/
theorem test_jmp_stuck : record (after (mach [6, 0])) = some (.stuckPC, 0, 6, true) := by decide
/-- Vectors 2.3: taken, and not taken with its own address as target. -/
theorem test_jt : (after (mach [7, 32767, 4, 22, 0])).pc = 4 ∧ (after (mach [7, 0, 0, 0])).pc = 3 := by decide
/-- Vectors 2.3: an invalid target of a jump that would not be taken. -/
theorem test_jt_invalid_target :
    record (after (mach [7, 0, 40000, 0])) = some (.outOfRangeValue, 0, 7, true) := by decide
/-- Vectors 2.3. -/
theorem test_jf : (after (mach [8, 0, 4, 22, 0])).pc = 4 ∧ (after (mach [8, 1, 4, 0, 22])).pc = 3 := by decide
/-- R132, R96. -/
theorem test_jf_stuck : record (after (mach [8, 0, 0])) = some (.stuckPC, 0, 8, true) := by decide
/-- Vectors 2.4. -/
theorem test_add : (after (mach [9, 32768, 5, 32767])).x[0] = 4 := by decide
/-- Vectors 2.4: the destination is also a source. -/
theorem test_add_decrement : (after (machA 3 [9, 32768, 32768, 32767])).x[0] = 2 := by decide
/-- Vectors 2.4. -/
theorem test_mult : (after (mach [10, 32768, 21845, 10922])).x[0] = 7282 := by decide
/-- Vectors 2.4. -/
theorem test_mult_wraps : (after (mach [10, 32768, 32767, 32767])).x[0] = 1 := by decide
/-- Vectors 2.4. -/
theorem test_mod : (after (mach [11, 32768, 5, 32767])).x[0] = 5 := by decide
/-- Vectors 2.4: a zero divisor in a register. -/
theorem test_mod_zero :
    record (after (mach [11, 32768, 5, 32769])) = some (.outOfRangeValue, 0, 11, true) := by decide
/-- Vectors 2.4. -/
theorem test_and : (after (mach [12, 32768, 181, 182])).x[0] = 180 := by decide
/-- Vectors 2.4. -/
theorem test_or : (after (mach [13, 32768, 181, 182])).x[0] = 183 := by decide
/-- Vectors 2.4. -/
theorem test_not : (after (mach [14, 32768, 12345])).x[0] = 20422 := by decide
/-- Vectors P6: a literal destination, with a source that is legal. -/
theorem test_not_literal_destination :
    record (after (machA 9 [14, 7, 32768])) = some (.invalidRegister, 0, 14, true) := by decide
/-- Vectors 2.5: data, and its own opcode. -/
theorem test_rmem :
    (after (mach [15, 32768, 4, 0, 7])).x[0] = 7 ∧ (after (mach [15, 32768, 0])).x[0] = 15 := by decide
/-- Vectors 2.5: a cell that is no Word, an address at `MEMLEN`. -/
theorem test_rmem_faults :
    record (after (mach [15, 32768, 1])) = some (.outOfRangeValue, 0, 15, true) ∧
    record (after (mach [15, 32768, 3])) = some (.addressOutOfBounds, 0, 15, true) := by decide
/-- Vectors 2.5: it overwrites its own first operand. -/
theorem test_wmem :
    (after (mach [16, 1, 5, 0])).mem = [(0, 16), (1, 5), (2, 5)] ∧ (after (mach [16, 1, 5, 0])).pc = 3 := by
  decide
/-- Vectors 2.5. -/
theorem test_wmem_bounds :
    record (after (mach [16, 3, 1])) = some (.addressOutOfBounds, 0, 16, true) ∧
    (after (mach [16, 3, 1])).mem = (mach [16, 3, 1]).mem := by decide
/-- Vectors 2.3. -/
theorem test_call : (after (mach [17, 3, 0, 18])).stack = [2] ∧ (after (mach [17, 3, 0, 18])).pc = 3 := by
  decide
/-- Vectors 2.3: a call to itself pushes nothing; a call at 32766 has no return address. -/
theorem test_call_faults :
    record (after (mach [17, 0])) = some (.stuckPC, 0, 17, true) ∧ (after (mach [17, 0])).stack = [] ∧
    exec (.call (.lit 0)) ((mach []).setPc 32766) =
      .next (((mach []).setPc 32766).takeFault .outOfRangeValue true) := by
  refine ⟨?_, ?_, rfl⟩ <;> decide
/-- Vectors 2.3: a return to the pushed Word, and to its own address, which pops nothing. -/
theorem test_ret :
    (after (machS [4, 7] [18])).pc = 4 ∧ (after (machS [4, 7] [18])).stack = [7] ∧
    record (after (machS [0] [18])) = some (.stuckPC, 0, 18, true) ∧ (after (machS [0] [18])).stack = [0] := by
  decide
/-- Vectors S6. -/
theorem test_ret_empty :
    (after (mach [18])).status = .haltedNormal ∧ (after (mach [18])).pc = 0 := by decide
/-- Vectors 2.6. -/
theorem test_halt : (after (mach [0])).status = .haltedNormal ∧ (after (mach [0])).pc = 0 := by decide
/-- Vectors 2.6: the last cell of memory. -/
theorem test_noop : (after (mach [21])).pc = 1 ∧ (after (mach [21])).status = .running := by decide
/-- Vectors 2.6: after what was sent before. -/
theorem test_out : (after ((machA 10 [19, 32768, 0]).sendChar 65)).output = [65, 10] := by decide
/-- Vectors 2.6. -/
theorem test_out_invalid :
    record (after (mach [19, 32776])) = some (.outOfRangeValue, 0, 19, true) ∧
    (after (mach [19, 32776])).output = [] := by decide
/-- Vectors 2.6. -/
theorem test_in :
    (after ((mach [20, 32768, 0]).setInput [111, 107])).x[0] = 111 ∧
    (after ((mach [20, 32768, 0]).setInput [111, 107])).input = [107] := by decide
/-- Vectors 2.6: no character waits and nothing changes; a literal destination consumes nothing. -/
theorem test_in_waits :
    after (mach [20, 32768, 0]) = mach [20, 32768, 0] ∧
    record (after ((mach [20, 3]).setInput [65])) = some (.invalidRegister, 0, 20, true) ∧
    (after ((mach [20, 3]).setInput [65])).input = [65] := by decide

/-- Vectors 2.6, 2.1: fetch faults. -/
theorem test_fetch_faults :
    record (after (mach [])) = some (.addressOutOfBounds, 0, 0, false) ∧
    record (after ((mach [21, 65535]).setPc 1)) = some (.illegalOpcode, 1, 65535, true) ∧
    record (after (mach [1, 32768])) = some (.addressOutOfBounds, 0, 1, true) := by decide
/-- Vectors 2.5: a rewritten cell is what the next fetch reads. -/
theorem test_store_then_fetch :
    (after (after (mach [16, 3, 0, 22]))).status = .haltedNormal := by decide
/-- R101. -/
theorem test_halted_core : after (after (mach [6, 0])) = after (mach [6, 0]) := by decide
/-- R185, the finite variant. -/
theorem test_stack_overflow :
    record (after { mach [2, 7] with stackDepth := some 0 }) = some (.stackOverflow, 0, 2, true) := by decide
/-- An instruction placed where the next step fetches runs (log entry 8). -/
theorem test_with_fetch_word :
    (after (State.reset.withFetchWord 48 0x7FFF80070001)).x[7] = 32767 ∧
    (after (State.reset.withFetchWord 16 0)).status = .haltedNormal := by decide

/-! ### 4. Memory, host port, text -/

theorem test_store_orders : Memory.store [(2, 7), (9, 1)] 5 3 = [(2, 7), (5, 3), (9, 1)] := by decide
theorem test_store_removes : Memory.store [(2, 7), (9, 1)] 2 0 = [(9, 1)] := by decide
/-- R53: little-endian, and an odd length refused. -/
theorem test_load_image :
    (loadImage [0x13, 0x00, 0x34, 0x12] State.reset).map (fun t => (t.mem, t.memLen.val)) =
      some ([(0, 0x0013), (1, 0x1234)], 2) ∧
    loadImage [1, 2, 3] State.reset = none := by decide
/-- R200, R201. -/
theorem test_reset_keeps_memory :
    (assertReset (after (mach [16, 1, 5, 0]))).mem = [(0, 16), (1, 5), (2, 5)] ∧
    (assertReset (after (mach [16, 1, 5, 0]))).pc = 0 := by decide
/-- R30, R31, R38, on the fault of vector S4. -/
theorem test_status_port : readStatus (after (mach [6, 0])) = ⟨2, 6, 0, 6, 1⟩ := by decide
/-- Vector S12, and the text of R177. -/
theorem test_assemble :
    assemble ("set a 5\nout a\nhalt".toList) = .ok [1, 32768, 5, 19, 32768, 0] ∧
    disassemble [1, 32768, 5, 19, 32768, 0] = some ("set a 5\nout a\nhalt".toList) ∧
    faultText (after (mach [6, 0])) = some ("jmp 0".toList) := by
  refine ⟨?_, ?_, ?_⟩ <;> rfl
/-- R84: the line and the counts are named. -/
theorem test_assemble_count :
    assemble ("noop\nadd a 1".toList) = .error ⟨2, .operandCount 3 2⟩ := by rfl
/-- Log entry 11: a signed token is malformed, a number above 32767 out of range, and an image that ends in the
middle of an instruction has no text. -/
theorem test_assemble_signed_token :
    readOperand ("-1".toList) = .error .malformed ∧ readOperand ("+5".toList) = .error .malformed ∧
    readOperand ("32768".toList) = .error .literalOutOfRange ∧ disassemble [21, 1, 32768] = none := by
  refine ⟨?_, ?_, ?_, ?_⟩ <;> rfl
/-- U27: a literal in a destination position is refused, while the disassembler still renders it (R86). -/
theorem test_assemble_literal_destination :
    assemble ("noop\nset 5 7".toList) = .error ⟨2, .literalDestination⟩ ∧
    disassemble [1, 5, 7] = some ("set 5 7".toList) ∧
    faultText (after (mach [1, 5, 7])) = some ("set 5 7".toList) := by
  refine ⟨?_, ?_, ?_⟩ <;> rfl
/-- Log entry 11: a carriage return before the line feed, a leading space, a trailing space, a tab, a final line
feed. -/
theorem test_assemble_refuses_other_spacing :
    assemble ("noop\r\nhalt".toList) = .error ⟨1, .malformed⟩ ∧
    assemble (" noop".toList) = .error ⟨1, .malformed⟩ ∧
    assemble ("noop ".toList) = .error ⟨1, .operandCount 0 1⟩ ∧
    assemble ("out\t65".toList) = .error ⟨1, .malformed⟩ ∧
    assemble ("noop\n".toList) = .error ⟨2, .malformed⟩ := by
  refine ⟨?_, ?_, ?_, ?_, ?_⟩ <;> rfl

/-! ### 5. Witnesses: the hypotheses of the statements can be met, each clause at the ends of its range -/

/-- A running machine with an empty record meets the invariant when its memory and pc do. -/
theorem fresh_inv (s : State) (hw : s.mem.wf = true) (hb : s.mem.below s.memLen.val = true)
    (hp : s.pc.toNat ≤ 32768) (hd : s.stackDepth = none) (hs : s.status = .running)
    (hr : s.fkind = .noFault ∧ s.faddr = 0 ∧ s.fop = 0 ∧ s.fopv = false) : s.Inv where
  memCanonical := hw
  memInside := hb
  pcBound := hp
  stackBound := by simp [hd]
  noRecord := fun _ => hr
  record := by simp [hs]
  overflowOnlyFinite := by simp [hr.1]

theorem witness_DecodedCellsAreTheEncoding :
    decode [9, 65535, 0, 32775, 21] = .ok (.add (.invalid 32759) (.lit 0) (.reg 7), [21]) := by rfl
theorem witness_DecodeRejectsByName :
    (∃ r : List Cell, [22, 1] = (22 : Cell) :: r ∧ 21 < (22 : Cell).toNat) ∧
    (∃ r roles, [9, 1, 1] = (9 : Cell) :: r ∧ matrixRoles (9 : Cell).toNat = some roles ∧
      r.length < roles.length) ∧
    (∃ r roles, [2] = (2 : Cell) :: r ∧ matrixRoles (2 : Cell).toNat = some roles ∧
      r.length < roles.length) :=
  ⟨⟨[1], rfl, by decide⟩, ⟨[1, 1], [.dst, .src, .src], rfl, rfl, by decide⟩,
    ⟨[], [.src], rfl, rfl, by decide⟩⟩
theorem witness_ResolveReadsLiteralOrRegister :
    (0 : Cell).toNat ≤ 32767 ∧ (32767 : Cell).toNat ≤ 32767 ∧
    (32768 : Cell).toNat = 32768 + (0 : RegIx).val ∧ (32775 : Cell).toNat = 32768 + (7 : RegIx).val ∧
    32775 < (32776 : Cell).toNat ∧ 32775 < (65535 : Cell).toNat := by decide
theorem witness_DestinationMustBeARegister :
    (32768 : Cell).toNat = 32768 + (0 : RegIx).val ∧ (32775 : Cell).toNat = 32768 + (7 : RegIx).val ∧
    (0 : Cell).toNat < 32768 ∧ (32767 : Cell).toNat < 32768 ∧
    32775 < (32776 : Cell).toNat ∧ 32775 < (65535 : Cell).toNat := by decide
/-- The fetch of every format: the opcode cell beyond memory, and an operand cell just beyond it (opcodes 2,
1 and 9 stand for the formats with one, two and three operands; the premises read no more of the opcode). -/
theorem witness_FetchFaults :
    (mach [9]).status = .running ∧ (mach []).memLen.val ≤ (mach []).pc.toNat ∧
    (mach [2]).cell (mach [2]).pc.toNat = 2 ∧ (mach [2]).pc.toNat < (mach [2]).memLen.val ∧
    (mach [2]).memLen.val ≤ (mach [2]).pc.toNat + 1 ∧
    (mach [1, 32768]).cell (mach [1, 32768]).pc.toNat = 1 ∧
    (mach [1, 32768]).memLen.val ≤ (mach [1, 32768]).pc.toNat + 2 ∧
    (mach [9, 32768, 1]).cell (mach [9, 32768, 1]).pc.toNat = 9 ∧
    (mach [9, 32768, 1]).memLen.val ≤ (mach [9, 32768, 1]).pc.toNat + 3 := by decide
/-- The operands that are no register, for the validation of a destination in every format. -/
theorem witness_ValidatesDestination :
    (∀ r : RegIx, Operand.lit 0 ≠ .reg r) ∧ (∀ r : RegIx, Operand.lit 32767 ≠ .reg r) ∧
    (∀ r : RegIx, Operand.invalid 0 ≠ .reg r) ∧ ∀ r : RegIx, Operand.invalid 32759 ≠ .reg r := by decide
/-- The premises of `WritesDS` and `WritesDSS` (set, not, eq, gt, add, mult, and, or): literals at both ends
and the last register. -/
theorem witness_Writes :
    resolve (mach []) (.lit 0) = .ok 0 ∧ resolve (mach []) (.lit 32767) = .ok 32767 ∧
    resolve ((mach []).writeReg 7 32767) (.reg 7) = .ok 32767 := ⟨rfl, rfl, rfl⟩
theorem witness_PushPutsValueOnTop :
    resolve (machS [4] []) (.lit 7) = .ok 7 ∧ Room (machS [4] []) ∧
    Room { machS [4] [] with stackDepth := some 2 } ∧ Full { machS [4] [] with stackDepth := some 1 } ∧
    Full { mach [] with stackDepth := some 0 } := by
  refine ⟨rfl, ?_, ?_, rfl, rfl⟩ <;> intro d h <;> cases h
  decide
theorem witness_PopTakesTopOrUnderflows :
    (machS [4, 9] []).stack = 4 :: [9] ∧ (mach []).stack = [] := ⟨rfl, rfl⟩
theorem witness_JmpGoesToTarget :
    (0 : Word).toNat ≠ ((mach []).setPc 1).pc.toNat ∧
    (32767 : Word).toNat ≠ ((mach []).setPc 32766).pc.toNat ∧
    (32767 : Word).toNat = ((mach []).setPc 32767).pc.toNat ∧ (0 : Word).toNat = (mach []).pc.toNat := by
  decide
/-- The three clauses of `jt` and of `jf`: condition 0, 1 and 32767, target its own address or not. -/
theorem witness_JtJumpsWhenNonZero :
    resolve (mach []) (.lit 1) = .ok 1 ∧ (1 : Word).toNat ≠ 0 ∧ (32767 : Word).toNat ≠ 0 ∧
    (0 : Word).toNat = 0 ∧ (4 : Word).toNat ≠ (mach []).pc.toNat ∧ (0 : Word).toNat = (mach []).pc.toNat :=
  ⟨rfl, by decide, by decide, rfl, by decide, rfl⟩
theorem witness_JfJumpsWhenZero :
    resolve (mach []) (.lit 0) = .ok 0 ∧ (0 : Word).toNat = 0 ∧ (1 : Word).toNat ≠ 0 ∧
    (4 : Word).toNat ≠ (mach []).pc.toNat ∧ (0 : Word).toNat = (mach []).pc.toNat :=
  ⟨rfl, rfl, by decide, by decide, rfl⟩
/-- The last address with a return address is 32765. -/
theorem witness_CallPushesReturnAddress :
    32767 < ((mach []).setPc 32766).pc.toNat + 2 ∧ ((mach []).setPc 32765).pc.toNat + 2 ≤ 32767 ∧
    Full { (mach []).setPc 32765 with stackDepth := some 0 } ∧ Room ((mach []).setPc 32765) ∧
    (32765 : Word).toNat = ((mach []).setPc 32765).pc.toNat ∧
    (32766 : Word).toNat ≠ ((mach []).setPc 32765).pc.toNat := by
  refine ⟨by decide, by decide, rfl, ?_, by decide, by decide⟩
  intro d h; cases h
theorem witness_RetPopsOrHaltsNormally :
    (mach []).stack = [] ∧ (machS [1] []).stack = 1 :: [] ∧ (1 : Word).toNat ≠ (machS [1] []).pc.toNat ∧
    (machS [0, 5] []).stack = 0 :: [5] ∧ (0 : Word).toNat = (machS [0, 5] []).pc.toNat := by decide
theorem witness_ModIsUnsignedRemainder :
    resolve (mach []) (.reg 0) = .ok 0 ∧ (0 : Word).toNat = 0 ∧ (1 : Word).toNat ≠ 0 ∧
    (32767 : Word).toNat ≠ 0 := ⟨rfl, rfl, by decide, by decide⟩
/-- Four cells: address 3 is the last, 4 is beyond; cells 32767 and 32768. -/
theorem witness_RmemLoadsCell :
    (mach [0, 0, 32768, 32767]).memLen.val ≤ (4 : Word).toNat ∧
    (2 : Word).toNat < (mach [0, 0, 32768, 32767]).memLen.val ∧
    32767 < ((mach [0, 0, 32768, 32767]).cell 2).toNat ∧
    (3 : Word).toNat < (mach [0, 0, 32768, 32767]).memLen.val ∧
    ((mach [0, 0, 32768, 32767]).cell 3).toNat ≤ 32767 := by decide
theorem witness_WmemStoresWholeCell :
    resolve (mach [16, 3, 9, 0]) (.lit 3) = .ok 3 ∧ resolve (mach [16, 3, 9, 0]) (.lit 9) = .ok 9 ∧
    (3 : Word).toNat < (mach [16, 3, 9, 0]).memLen.val ∧ (mach [16, 3, 9, 0]).mem.wf = true ∧
    (mach [16, 3, 9, 0]).memLen.val ≤ (4 : Word).toNat :=
  ⟨rfl, rfl, by decide, by decide, by decide⟩
theorem witness_OutSendsOneCharacter :
    resolve (mach []) (.lit 32767) = .ok 32767 ∧ resolve (machA 10 []) (.reg 0) = .ok 10 := ⟨rfl, rfl⟩
theorem witness_InReceivesOrWaits :
    ((mach []).setInput [111]).input = 111 :: [] ∧ (mach []).input = [] := by decide

theorem witness_StepRunsTheDecodedInstruction :
    (mach [19, 65]).status = .running ∧
    decode ((mach [19, 65]).cellsFrom (mach [19, 65]).pc.toNat 4) = .ok (.out (.lit 65), []) := ⟨rfl, rfl⟩
theorem witness_FetchBeyondMemoryFaults :
    (mach []).status = .running ∧ (mach []).memLen.val ≤ (mach []).pc.toNat ∧
    (mach [21]).memLen.val ≤ ((mach [21]).setPc 1).pc.toNat := by decide
/-- An opcode 22; an operand cell just beyond memory; the last operand in the last cell. -/
theorem witness_OperandFetchFollowsTheOpcode :
    (mach [22]).status = .running ∧ (mach [22]).pc.toNat < (mach [22]).memLen.val ∧
    21 < ((mach [22]).cell (mach [22]).pc.toNat).toNat ∧
    matrixRoles ((mach [9, 1, 1]).cell 0).toNat = some [.dst, .src, .src] ∧
    (mach [9, 1, 1]).memLen.val ≤ (mach [9, 1, 1]).pc.toNat + [Role.dst, .src, .src].length ∧
    (mach [9, 1, 1, 1]).pc.toNat + [Role.dst, .src, .src].length < (mach [9, 1, 1, 1]).memLen.val := by
  decide
theorem witness_HaltedCoreDoesNothing :
    (after (mach [0])).status ≠ .running ∧ (after (mach [6, 0])).status ≠ .running := by decide
/-- A fault with `FOPV` 1 and one with `FOPV` 0. -/
theorem witness_FaultsArePrecise :
    (mach [22]).status = .running ∧ step (mach [22]) = .next (after (mach [22])) ∧
    (after (mach [22])).status = .haltedFault ∧ ¬ (mach [22]).memLen.val ≤ (mach [22]).pc.toNat ∧
    step (mach []) = .next (after (mach [])) ∧ (after (mach [])).status = .haltedFault ∧
    (mach []).memLen.val ≤ (mach []).pc.toNat :=
  ⟨rfl, rfl, by decide, by decide, rfl, by decide, by decide⟩
/-- `halt`, `ret` on an empty stack, and an instruction that is neither. -/
theorem witness_NormalHaltOnlyByHaltOrRet :
    (mach [0]).Inv ∧ (mach [0]).status = .running ∧ step (mach [0]) = .next (after (mach [0])) ∧
    fetch (mach [0]) = .ok .halt ∧ (mach [18]).Inv ∧ fetch (mach [18]) = .ok .ret ∧
    (mach [18]).stack = [] ∧ (mach [21]).Inv ∧ fetch (mach [21]) = .ok .noop :=
  ⟨fresh_inv _ (by decide) (by decide) (by decide) rfl rfl (by decide), rfl, rfl, rfl,
    fresh_inv _ (by decide) (by decide) (by decide) rfl rfl (by decide), rfl, rfl,
    fresh_inv _ (by decide) (by decide) (by decide) rfl rfl (by decide), rfl⟩
/-- A step that moves the pc, and an `in` that waits. -/
theorem witness_RunningStepMovesPcOrWaits :
    (mach [21]).status = .running ∧ step (mach [21]) = .next (after (mach [21])) ∧
    (after (mach [21])).status = .running ∧ step (mach [20, 32775]) = .next (after (mach [20, 32775])) ∧
    (after (mach [20, 32775])).status = .running ∧ (mach [20, 32775]).waiting :=
  ⟨rfl, rfl, by decide, rfl, by decide, rfl, rfl, 7, rfl⟩
/-- A one-cell and a four-cell instruction at the end of their memories. -/
theorem witness_PcAdvancesByTheLength :
    fetch (mach [21]) = .ok .noop ∧ step (mach [21]) = .next (after (mach [21])) ∧
    (after (mach [21])).status = .running ∧ ¬ (mach [21]).waiting ∧
    fetch (mach [9, 32768, 1, 1]) = .ok (.add (.reg 0) (.lit 1) (.lit 1)) ∧
    (after (mach [9, 32768, 1, 1])).status = .running ∧ ¬ (mach [9, 32768, 1, 1]).waiting := by
  refine ⟨rfl, rfl, by decide, ?_, rfl, by decide, ?_⟩ <;> rintro ⟨-, -, r, h⟩ <;> cases h

/-- A register that is a source and not the destination; the destination itself is excluded. -/
theorem witness_OnlyTheDestinationRegisterChanges :
    exec (.set (.reg 7) (.reg 0)) (machA 5 []) = .next (stateOf (exec (.set (.reg 7) (.reg 0)) (machA 5 []))) ∧
    (Role.dst, Operand.reg 0) ∉ (Instr.set (.reg 7) (.reg 0)).operands ∧
    (Role.dst, Operand.reg 7) ∈ (Instr.set (.reg 7) (.reg 0)).operands := ⟨rfl, by decide, by decide⟩
/-- One instruction for each disjunct: `noop`, `push`, `call`, `pop`, `ret`. -/
theorem witness_OnlyFourInstructionsReachTheStack :
    (stateOf (exec .noop (machS [4] []))).stack = [4] ∧
    (stateOf (exec (.push (.lit 7)) (machS [4] []))).stack = [7, 4] ∧
    (stateOf (exec (.call (.lit 9)) (machS [4] []))).stack = [2, 4] ∧
    (stateOf (exec (.pop (.reg 0)) (machS [4] []))).stack = [] ∧
    (stateOf (exec .ret (machS [4] []))).stack = [] := by decide
/-- A store beside the cell looked at, and an instruction that stores nothing. -/
theorem witness_OnlyWmemChangesMemory :
    (mach [16, 3, 9, 5]).mem.wf = true ∧
    exec (.wmem (.lit 3) (.lit 9)) (mach [16, 3, 9, 5]) =
      .next (stateOf (exec (.wmem (.lit 3) (.lit 9)) (mach [16, 3, 9, 5]))) ∧
    (∀ a b addr, Instr.wmem (.lit 3) (.lit 9) = .wmem a b → resolve (mach [16, 3, 9, 5]) a = .ok addr →
      addr.toNat ≠ 2) ∧
    (∀ a b addr, Instr.noop = .wmem a b → resolve (mach [16, 3, 9, 5]) a = .ok addr → addr.toNat ≠ 2) := by
  refine ⟨by decide, rfl, ?_, ?_⟩
  · intro a b addr h hr
    cases h
    cases hr
    decide
  · intro a b addr h
    cases h
/-- One instruction for each disjunct: `noop`, `out`, `in`. -/
theorem witness_OnlyInAndOutMoveCharacters :
    (stateOf (exec .noop ((mach []).setInput [111]))).input = [111] ∧
    (stateOf (exec (.out (.lit 65)) (mach []))).output = [65] ∧
    (stateOf (exec (.inp (.reg 0)) ((mach []).setInput [111]))).input = [] := by decide
/-- A step that ends in no fault and one that does. -/
theorem witness_RunParametersAndRecordStay :
    step (mach [21]) = .next (after (mach [21])) ∧ (after (mach [21])).status ≠ .haltedFault ∧
    step (mach []) = .next (after (mach [])) ∧ (after (mach [])).status = .haltedFault :=
  ⟨rfl, by decide, rfl, by decide⟩

/-- A state with the invariant, and with a pc at its bound. -/
theorem witness_StepKeepsTheInvariant :
    (mach [16, 3, 9, 5]).Inv ∧ step (mach [16, 3, 9, 5]) = .next (after (mach [16, 3, 9, 5])) ∧
    ((mach [21]).setPc 32768).Inv :=
  ⟨fresh_inv _ (by decide) (by decide) (by decide) rfl rfl (by decide), rfl,
    fresh_inv _ (by decide) (by decide) (by decide) rfl rfl (by decide)⟩
/-- The empty image and one of two words. -/
theorem witness_BootMeetsTheInvariant :
    boot [] [] = some State.reset ∧ (boot [20, 0, 0, 128] [111]).isSome = true ∧ (mach [21]).Inv :=
  ⟨by decide, by decide, fresh_inv _ (by decide) (by decide) (by decide) rfl rfl (by decide)⟩
/-- Every fault kind, and none. -/
theorem witness_StepFaultsAsTheMatrixSays :
    (mach []).status = .running ∧ matrixFault (mach []) = some (.addressOutOfBounds, false) ∧
    matrixFault (mach [2, 32776]) = some (.outOfRangeValue, true) ∧
    matrixFault (mach [3, 5]) = some (.invalidRegister, true) ∧
    matrixFault (mach [1, 32768]) = some (.addressOutOfBounds, true) ∧
    matrixFault (mach [3, 32768]) = some (.stackUnderflow, true) ∧
    matrixFault (mach [22]) = some (.illegalOpcode, true) ∧
    matrixFault (mach [6, 0]) = some (.stuckPC, true) ∧
    matrixFault { mach [2, 7] with stackDepth := some 0 } = some (.stackOverflow, true) ∧
    matrixFault (mach [21]) = none := by decide
theorem witness_StoreIsSeenByTheNextFetch :
    (mach [16, 3, 0, 22]).mem.wf = true ∧ resolve (mach [16, 3, 0, 22]) (.lit 3) = .ok 3 ∧
    resolve (mach [16, 3, 0, 22]) (.lit 0) = .ok 0 ∧ (3 : Word).toNat < (mach [16, 3, 0, 22]).memLen.val ∧
    exec (.wmem (.lit 3) (.lit 0)) (mach [16, 3, 0, 22]) =
      .next (stateOf (exec (.wmem (.lit 3) (.lit 0)) (mach [16, 3, 0, 22]))) :=
  ⟨by decide, rfl, rfl, by decide, rfl⟩
/-- A cell above 32767 of the image, still there after a step. -/
theorem witness_NoStepCreatesALargeCell :
    (mach [1, 32768, 5]).mem.wf = true ∧ step (mach [1, 32768, 5]) = .next (after (mach [1, 32768, 5])) ∧
    32767 < ((after (mach [1, 32768, 5])).cell 1).toNat := ⟨by decide, rfl, by decide⟩
theorem witness_StepReadsOnlyTheNextCharacter :
    ((mach [20, 32768]).setInput [111]).input ≠ [] ∧
    step ((mach [20, 32768]).setInput [111]) = .next (after ((mach [20, 32768]).setInput [111])) :=
  ⟨by decide, rfl⟩
theorem witness_PushThenPopReturnsTheValue :
    resolve (machA 1234 []) (.reg 0) = .ok 1234 ∧ Room (machA 1234 []) :=
  ⟨rfl, fun d h => by cases h⟩
/-- Vector S11: the `ret` stands at 3, and 3 is not `p + 2`. -/
theorem witness_CallThenRetComesBack :
    exec (.call (.lit 3)) (mach [17, 3, 0, 18]) = .next (after (mach [17, 3, 0, 18])) ∧
    (after (mach [17, 3, 0, 18])).status ≠ .haltedFault ∧
    (after (mach [17, 3, 0, 18])).pc.toNat ≠ (mach [17, 3, 0, 18]).pc.toNat + 2 :=
  ⟨rfl, by decide, by decide⟩

/-- An odd length; one word too many; the largest image and the empty one, with a cell of each. -/
theorem witness_ImageLoadsLittleEndian :
    ([1] : List (BitVec 8)).length % 2 = 1 ∧ 32768 < (List.replicate 65538 (0 : BitVec 8)).length / 2 ∧
    (List.replicate 65536 (0 : BitVec 8)).length % 2 = 0 ∧
    (List.replicate 65536 (0 : BitVec 8)).length / 2 ≤ 32768 ∧
    32767 < (List.replicate 65536 (0 : BitVec 8)).length / 2 ∧ ([] : List (BitVec 8)).length % 2 = 0 ∧
    32768 < (List.replicate 32769 (0 : Cell)).length ∧ (List.replicate 32768 (0 : Cell)).length ≤ 32768 ∧
    32767 < (List.replicate 32768 (0 : Cell)).length := by
  simp only [List.length_replicate]
  decide
theorem witness_FaultTextIsTheFetchedInstruction :
    (mach [6, 0]).status = .running ∧ fetch (mach [6, 0]) = .ok (.jmp (.lit 0)) ∧
    step (mach [6, 0]) = .next (after (mach [6, 0])) ∧ (after (mach [6, 0])).status = .haltedFault :=
  ⟨rfl, rfl, rfl, by decide⟩
/-- From reset, and from a halted core whose pc is at the end of memory. -/
theorem witness_PlacedInstructionRunsNext :
    State.reset.mem.wf = true ∧ decodeTableWord 64 0x8000800180010009 = some (.add (.reg 1) (.reg 1) (.reg 0)) ∧
    ((after (mach [0])).setPc 32765).mem.wf = true := ⟨by decide, rfl, by decide⟩

theorem witness_DisassemblyOfAssemblyIsTheSource :
    assemble ("set a 5\nhalt".toList) = .ok [1, 32768, 5, 0] := by rfl
/-- A list of well-formed instructions; an image that disassembles and is well formed, and one that is not. -/
theorem witness_AssemblyOfDisassemblyIsTheImage :
    ([.set (.reg 0) (.lit 5), .halt] : List Instr) ≠ [] ∧
    (∀ i ∈ ([.set (.reg 0) (.lit 5), .halt] : List Instr), i.wellFormed = true) ∧
    ([1, 32768, 5, 0] : List Cell) ≠ [] ∧ disassemble [1, 32768, 5, 0] = some ("set a 5\nhalt".toList) ∧
    ([1, 5, 7] : List Cell) ≠ [] ∧ disassemble [1, 5, 7] = some ("set 5 7".toList) :=
  ⟨by decide, by decide, by decide, rfl, by decide, rfl⟩
/-- The last literal and the last register; one operand too few, one too many; a bad line after a good one; a
literal destination. -/
theorem witness_AssemblerRejectsBadLines :
    readOperand ("32767".toList) = .ok (.lit 32767) ∧ readOperand ['h'] = .ok (.reg 7) ∧
    splitText ' ' ("jt".toList) = ["jt".toList] ∧ mnemonics[7]? = some ("jt".toList) ∧
    matrixRoles 7 = some [.src, .src] ∧ (∀ t ∈ ([['1']] : List Text), splitText ' ' t = [t]) ∧
    ([['1']] : List Text).length ≠ [Role.src, .src].length ∧
    ([['1'], ['2'], ['3']] : List Text).length ≠ [Role.src, .src].length ∧
    assembleLines 1 ["noop".toList] = .ok [21] ∧
    assembleLine ("out 32768".toList) = .error .literalOutOfRange ∧
    instrText (.pop (.lit 32767)) = some ("pop 32767".toList) ∧
    (∃ v, (Role.dst, Operand.lit v) ∈ (Instr.pop (.lit 32767)).operands) := by
  refine ⟨rfl, rfl, rfl, rfl, by decide, ?_, by decide, by decide, rfl, rfl, rfl, 32767, by decide⟩
  simp [splitText]

end Sys2Proof.Tests
end

section
/-! SUPPORT. Which cells name a register, and the encoding statements settled from it (30_encoding.md rules
R73, R74). -/

namespace Sys2Proof

/-- Registers are exactly the cells of [32768, 32775], each cell one register (R73). -/
theorem Operand.ofCell_eq_reg_iff {o : Cell} {r : RegIx} :
    Operand.ofCell o = .reg r ↔ o.toNat = 32768 + r.val := by
  constructor
  · intro h
    rw [← Operand.toCell_ofCell o, h, Operand.toCell_reg_toNat]
  · intro h
    have ho : o = (Operand.reg r).toCell :=
      BitVec.eq_of_toNat_eq (h.trans (Operand.toCell_reg_toNat r).symm)
    rw [ho, Operand.ofCell_toCell]

/-- Outside the register range no cell is legal as a destination (R74). -/
theorem Operand.ofCell_legal_dst_eq_false {o : Cell} (h : o.toNat < 32768 ∨ 32775 < o.toNat) :
    (Operand.ofCell o).legal .dst = false := by
  cases ho : Operand.ofCell o with
  | lit v => rfl
  | reg r =>
    have hr := r.isLt
    have hn := Operand.ofCell_eq_reg_iff.mp ho
    omega
  | invalid k => rfl

namespace Machine

/-- Settles O6: a register cell reads as its register, and a cell outside the register range is no legal
destination, on which `regix` fails. -/
theorem destinationMustBeARegister : Obligations.DestinationMustBeARegister := by
  intro o
  constructor
  · intro r h
    exact regix_ok.mpr (Operand.ofCell_eq_reg_iff.mpr h)
  · intro h
    exact regix_error.mpr ⟨Operand.ofCell_legal_dst_eq_false h, rfl⟩

end Machine
end Sys2Proof
end

section
/-! SUPPORT. The encoding that decoded cells are, and the independent table of roles beside the opcode map
(30_encoding.md rules R70 to R76). -/

namespace Sys2Proof

/-- Literals are the cells up to 32767, each its own value (R73). -/
theorem Operand.ofCell_of_le {o : Cell} (h : o.toNat ≤ 32767) :
    Operand.ofCell o = .lit (BitVec.ofNat 15 o.toNat) := by
  rw [Operand.ofCell, if_pos (by omega), BitVec.ofNat_toNat]

/-- Above the register range no cell is legal as a source (R73). -/
theorem Operand.ofCell_legal_src_eq_false {o : Cell} (h : 32775 < o.toNat) :
    (Operand.ofCell o).legal .src = false := by
  rw [Operand.ofCell, if_neg (by omega), if_neg (by omega)]
  rfl

/-- The instructions a shape makes are encoded as the opcode cell `op` and the cells of their operands in
order (R70). -/
def Shape.EncodesAs (op : Cell) : Shape → Prop
  | .zero i => encode i = [op]
  | .one f => ∀ a, encode (f a) = [op, a.toCell]
  | .two f => ∀ a b, encode (f a b) = [op, a.toCell, b.toCell]
  | .three f => ∀ a b c, encode (f a b c) = [op, a.toCell, b.toCell, c.toCell]

theorem Shape.count_le_three (sh : Shape) : sh.count ≤ 3 := by
  cases sh <;> simp [Shape.count]

/-- The opcode map gives every opcode the instructions encoded with it (R76). -/
theorem opcodeMap_encodesAs {op : Cell} {sh : Shape} (h : opcodeMap op.toNat = some sh) :
    sh.EncodesAs op := by
  have hle := Machine.opcodeMap_isSome.mp ⟨sh, h⟩
  have hop : op = BitVec.ofNat 16 op.toNat := by rw [BitVec.ofNat_toNat, BitVec.setWidth_eq]
  generalize op.toNat = n at h hle hop
  subst hop
  interval_cases n <;> cases h <;> simp [Shape.EncodesAs, encode, Instr.opcode, Instr.operands]

/-- Taking operands takes the cells of the instruction's encoding off the front and leaves the rest. -/
theorem takeOperands_eq_encode_append {op : Cell} {sh : Shape} {r rest : List Cell} {i : Instr}
    (hsh : sh.EncodesAs op) (h : takeOperands op sh r = .ok (i, rest)) : op :: r = encode i ++ rest := by
  unfold takeOperands at h
  split at h <;> cases h <;> simp [show encode _ = _ from hsh ..]

/-- With fewer cells than the shape needs, the error names the opcode. -/
theorem takeOperands_missing {op : Cell} {sh : Shape} {r : List Cell} (h : r.length < sh.count) :
    takeOperands op sh r = .error (.missingOperand op) := by
  cases ht : takeOperands op sh r with
  | ok p =>
    have hl := Machine.takeOperands_ok ht
    omega
  | error e => rw [(Machine.takeOperands_error ht).1]

/-- With as many cells as the shape needs, there is an instruction. -/
theorem exists_takeOperands_ok (op : Cell) {sh : Shape} {r : List Cell} (h : sh.count ≤ r.length) :
    ∃ p, takeOperands op sh r = .ok p := by
  cases ht : takeOperands op sh r with
  | ok p => exact ⟨p, rfl⟩
  | error e =>
    have hl := (Machine.takeOperands_error ht).2
    omega

theorem decode_cons_of_opcodeMap {op : Cell} {sh : Shape} (h : opcodeMap op.toNat = some sh)
    (r : List Cell) : decode (op :: r) = takeOperands op sh r := by
  simp [decode, h]

/-- A value above 21 is no opcode, whatever follows it (R78). -/
theorem decode_cons_illegal {op : Cell} (h : 21 < op.toNat) (r : List Cell) :
    decode (op :: r) = .error (.illegalOpcode op) := by
  cases hm : opcodeMap op.toNat with
  | none => simp [decode, hm]
  | some sh =>
    have hle := Machine.opcodeMap_isSome.mp ⟨sh, hm⟩
    omega

/-- Cells that decode are the encoding of what they decode to, followed by the cells left over (R75). -/
theorem eq_encode_append_of_decode {cs rest : List Cell} {i : Instr} (h : decode cs = .ok (i, rest)) :
    cs = encode i ++ rest := by
  cases cs with
  | nil => cases h
  | cons op r =>
    cases hm : opcodeMap op.toNat with
    | none => simp [decode, hm] at h
    | some sh =>
      rw [decode_cons_of_opcodeMap hm] at h
      exact takeOperands_eq_encode_append (opcodeMap_encodesAs hm) h

/-- The roles written apart from the model are those of the instruction's own operands (R71). -/
theorem matrixRoles_opcode (i : Instr) :
    Machine.matrixRoles i.opcode.toNat = some (i.operands.map Prod.fst) := by
  cases i <;> rfl

/-- Where the table of roles has an opcode, the opcode map has it too, with one operand cell per role. -/
theorem opcodeMap_of_matrixRoles {n : Nat} {roles : List Role} (h : Machine.matrixRoles n = some roles) :
    ∃ sh, opcodeMap n = some sh ∧ sh.count = roles.length := by
  have hle : n ≤ 21 := by
    by_contra hn
    have hne : ∀ m ≤ 21, n ≠ m := by omega
    simp [Machine.matrixRoles, hne] at h
  interval_cases n <;> cases h <;> exact ⟨_, rfl, rfl⟩

end Sys2Proof
end

section
/-! SUPPORT. What a fetch and a step answer, and the statements settled from it: operand resolution, operand
fetch and the halted core (40_step_and_operands.md rules R92, R97, R101). -/

namespace Sys2Proof.Machine

variable {s : State} {i : Instr}

/-! ### The cells a fetch reads -/

theorem cellsFrom_length (s : State) (k n : Nat) : (s.cellsFrom k n).length = min n (s.memLen.val - k) := by
  induction n generalizing k with
  | zero => simp [State.cellsFrom]
  | succ n ih =>
    rw [cellsFrom_succ]
    split_ifs with hk
    · rw [List.length_cons, ih]; omega
    · rw [List.length_nil]; omega

theorem cellsFrom_getElem (s : State) (k n j : Nat) (h : j < (s.cellsFrom k n).length) :
    (s.cellsFrom k n)[j] = s.cell (k + j) := by
  induction n generalizing k j with
  | zero => cases h
  | succ n ih =>
    by_cases hk : k < s.memLen.val
    · have hcons := cellsFrom_succ s k n
      rw [if_pos hk] at hcons
      cases j with
      | zero => simp [hcons]
      | succ j =>
        have hj : j < (s.cellsFrom (k + 1) n).length := by simpa [hcons] using h
        simp only [hcons, List.getElem_cons_succ, ih _ _ hj]
        congr 1; omega
    · simp [cellsFrom_succ, hk] at h

/-! ### Fetch -/

theorem fetch_ok : fetch s = .ok i ↔ ∃ rest, decode (s.cellsFrom s.pc.toNat 4) = .ok (i, rest) := by
  unfold fetch
  cases decode (s.cellsFrom s.pc.toNat 4) <;> simp [Prod.ext_iff]

theorem fetch_error {e : DecodeError} :
    fetch s = .error e ↔ decode (s.cellsFrom s.pc.toNat 4) = .error e := by
  unfold fetch
  cases decode (s.cellsFrom s.pc.toNat 4) <;> simp

/-- With the pc below `MEMLEN`, the decoder is given the opcode cell and up to three cells more (R91). -/
theorem cellsFrom_pc (hp : s.pc.toNat < s.memLen.val) :
    s.cellsFrom s.pc.toNat 4 = s.cell s.pc.toNat :: s.cellsFrom (s.pc.toNat + 1) 3 := by
  rw [cellsFrom_succ, if_pos hp]

theorem fetch_illegalOpcode (hp : s.pc.toNat < s.memLen.val) (h : 21 < (s.cell s.pc.toNat).toNat) :
    fetch s = .error (.illegalOpcode (s.cell s.pc.toNat)) := by
  rw [fetch_error, cellsFrom_pc hp, decode_cons_illegal h]

theorem fetch_missingOperand {roles : List Role} (hp : s.pc.toNat < s.memLen.val)
    (hr : matrixRoles (s.cell s.pc.toNat).toNat = some roles)
    (h : s.memLen.val ≤ s.pc.toNat + roles.length) :
    fetch s = .error (.missingOperand (s.cell s.pc.toNat)) := by
  obtain ⟨sh, hm, hc⟩ := opcodeMap_of_matrixRoles hr
  rw [fetch_error, cellsFrom_pc hp, decode_cons_of_opcodeMap hm, takeOperands_missing]
  rw [cellsFrom_length]
  omega

theorem exists_fetch_ok {roles : List Role} (hr : matrixRoles (s.cell s.pc.toNat).toNat = some roles)
    (h : s.pc.toNat + roles.length < s.memLen.val) : ∃ i, fetch s = .ok i := by
  obtain ⟨sh, hm, hc⟩ := opcodeMap_of_matrixRoles hr
  have hcells : sh.count ≤ (s.cellsFrom (s.pc.toNat + 1) 3).length := by
    have := sh.count_le_three
    rw [cellsFrom_length]
    omega
  obtain ⟨⟨i, rest⟩, ht⟩ := exists_takeOperands_ok (s.cell s.pc.toNat) hcells
  refine ⟨i, fetch_ok.mpr ⟨rest, ?_⟩⟩
  rw [cellsFrom_pc (by omega), decode_cons_of_opcodeMap hm, ht]

/-- The encoding of a fetched instruction stands in memory from the pc on. -/
theorem encode_getElem_of_fetch (h : fetch s = .ok i) (j : Nat) (hj : j < (encode i).length) :
    (encode i)[j] = s.cell (s.pc.toNat + j) := by
  obtain ⟨rest, hd⟩ := fetch_ok.mp h
  have hcells := eq_encode_append_of_decode hd
  have hlt : j < (s.cellsFrom s.pc.toNat 4).length := by rw [hcells, List.length_append]; omega
  rw [← cellsFrom_getElem s s.pc.toNat 4 j hlt]
  simp [hcells, hj]

theorem opcode_of_fetch (h : fetch s = .ok i) : i.opcode = s.cell s.pc.toNat :=
  encode_getElem_of_fetch h 0 (by simp [encode])

/-- The operands of a fetched instruction are the cells after the opcode cell, in address order (R92). -/
theorem operand_of_fetch (h : fetch s = .ok i) (j : Nat) (hj : j < i.operands.length) :
    i.operands[j].2 = .ofCell (s.cell (s.pc.toNat + 1 + j)) := by
  have hcell := encode_getElem_of_fetch h (j + 1) (by simp [encode, hj])
  simp only [encode, List.getElem_cons_succ, List.getElem_map] at hcell
  rw [← Operand.ofCell_toCell i.operands[j].2, hcell, Nat.add_right_comm, Nat.add_assoc]

/-! ### Step -/

theorem step_of_fetch_ok (hs : s.status = .running) (h : fetch s = .ok i) : step s = exec i s := by
  simp [step, hs, h]

theorem step_of_fetch_error {e : DecodeError} (hs : s.status = .running) (h : fetch s = .error e) :
    step s = fetchFault s e := by
  simp [step, hs, h]

/-! ### The statements -/

/-- Settles O31: the opcode cell and the number of cells that exist decide what the fetch answers, and a
fetched instruction's encoding is the cells at the pc. -/
theorem operandFetchFollowsTheOpcode : Obligations.OperandFetchFollowsTheOpcode := by
  intro s hs hp
  constructor
  · intro hop
    exact step_of_fetch_error hs (fetch_illegalOpcode hp hop)
  intro roles hr
  constructor
  · intro hlen
    exact step_of_fetch_error hs (fetch_missingOperand hp hr hlen)
  · intro hlen
    obtain ⟨i, hf⟩ := exists_fetch_ok hr hlen
    have hop := opcode_of_fetch hf
    have hroles : roles = i.operands.map Prod.fst := by
      rw [← hop, matrixRoles_opcode] at hr
      exact (Option.some.inj hr).symm
    refine ⟨i, hop, step_of_fetch_ok hs hf, ?_⟩
    apply List.ext_getElem
    · simp [hroles]
    · intro j hj _
      simp [hroles, ← operand_of_fetch hf j hj]

/-- Settles O5: by the range of the cell it reads as a literal, as a register, or as an operand that is no
legal source. -/
theorem resolveReadsLiteralOrRegister : Obligations.ResolveReadsLiteralOrRegister := by
  intro s o
  refine ⟨fun h => ?_, fun r h => ?_, fun h => ?_⟩
  · rw [Operand.ofCell_of_le h]; rfl
  · rw [Operand.ofCell_eq_reg_iff.mpr h]; rfl
  · exact resolve_error.mpr ⟨Operand.ofCell_legal_src_eq_false h, rfl⟩

/-- Settles O33: both halted states idle. -/
theorem haltedCoreDoesNothing : Obligations.HaltedCoreDoesNothing :=
  fun _ hs => step_halted hs

end Sys2Proof.Machine
end

section
/-! SUPPORT. From a row of the opcode map to the encoding and the fetch faults of its instruction, and what
a format of a destination and a source answers, whole; then the statement on `set` (30_encoding.md R71, R76;
40_step_and_operands.md R91 to R93; 41_data_movement.md R110). -/

namespace Sys2Proof.Machine

open Claims

variable {s : State}

/-! ### Fetch faults and encoding, from the opcode map -/

/-- Every opcode of the opcode map is in the table of roles, with one role per operand cell (R71). -/
theorem matrixRoles_of_opcodeMap {n : Nat} {sh : Shape} (h : opcodeMap n = some sh) :
    ∃ roles, matrixRoles n = some roles ∧ roles.length = sh.count := by
  have hle := opcodeMap_isSome.mp ⟨sh, h⟩
  interval_cases n <;> cases h <;> exact ⟨_, rfl, rfl⟩

/-- The fetch of a running core faults where the opcode cell (R91) or an operand cell (R92) lies at or beyond
`MEMLEN`. -/
theorem fetchFaults_of_opcodeMap {n : Cell} {sh : Shape} (h : opcodeMap n.toNat = some sh) :
    FetchFaults n sh.count := by
  intro s hs
  constructor
  · intro hp
    exact step_of_fetch_error hs (fetch_noOpcode.mpr hp)
  · rintro hp rfl hlen
    obtain ⟨roles, hr, hc⟩ := matrixRoles_of_opcodeMap h
    exact step_of_fetch_error hs (fetch_missingOperand hp hr (by omega))

theorem encodedTwo_of_opcodeMap {n : Cell} {mk : Operand → Operand → Instr}
    (h : opcodeMap n.toNat = some (.two mk)) : EncodedTwo n mk :=
  ⟨fun a b => decode_cons_of_opcodeMap h [a, b], fetchFaults_of_opcodeMap h⟩

/-! ### Operand faults, as the runners answer them -/

theorem legal_dst_eq_false {a : Operand} (h : ∀ r, a ≠ .reg r) : a.legal .dst = false := by
  cases a with
  | lit v => rfl
  | reg r => exact absurd rfl (h r)
  | invalid k => rfl

theorem runS_of_not_legal {a : Operand} {f : Word → Effect} (h : a.legal .src = false) :
    runS s a f = raiseFault s .outOfRangeValue := by
  simp [runS, resolve_error.mpr ⟨h, rfl⟩]

/-- An illegal destination faults before the source is looked at (R93, decision D6). -/
theorem runDS_of_not_legal_dst {a b : Operand} {f : RegIx → Word → Effect} (h : a.legal .dst = false) :
    runDS s a b f = raiseFault s .invalidRegister := by
  simp [runDS, regix_error.mpr ⟨h, rfl⟩]

theorem runDS_of_not_legal_src {r : RegIx} {b : Operand} {f : RegIx → Word → Effect}
    (h : b.legal .src = false) : runDS s (.reg r) b f = raiseFault s .outOfRangeValue :=
  runS_of_not_legal h

/-! ### Instructions of format `DS` -/

section
variable {mk : Operand → Operand → Instr}

theorem validatesDS_of_exec {f : State → RegIx → Word → Effect}
    (h : ∀ a b s, exec (mk a b) s = runDS s a b (f s)) : ValidatesDS mk := by
  intro s
  constructor
  · intro a b ha
    exact (h a b s).trans (runDS_of_not_legal_dst (legal_dst_eq_false ha))
  · intro r k
    exact (h (.reg r) (.invalid k) s).trans (runDS_of_not_legal_src rfl)

/-- A register write that falls through three cells commits, since the pc moves. -/
theorem writesDS_of_exec {f : Word → Word}
    (h : ∀ a b s, exec (mk a b) s = runDS s a b fun r u => writeAndGo s r (f u) 3) : WritesDS mk f := by
  intro s r b u hu
  rw [h, runDS_ok hu, finish_writeAndGo r (f u) 3 (by decide) (by decide)]
  rfl

end

/-- Settles O7: `set` is row 1 of the opcode map, and its meaning is the format `DS` over a write of the
source's value. -/
theorem setCopiesValue : Obligations.SetCopiesValue :=
  ⟨encodedTwo_of_opcodeMap rfl, validatesDS_of_exec exec_set, writesDS_of_exec exec_set⟩

end Sys2Proof.Machine
end

section
/-! SUPPORT. What a format of two sources, with a destination before them or not, answers, whole, and the
Word a comparison writes; then the statements on `eq` and `gt` (30_encoding.md R71, R76;
40_step_and_operands.md R93; 42_compare.md R120, R121). -/

namespace Sys2Proof.Machine

open Claims

variable {s : State}

theorem encodedThree_of_opcodeMap {n : Cell} {mk : Operand → Operand → Operand → Instr}
    (h : opcodeMap n.toNat = some (.three mk)) : EncodedThree n mk :=
  ⟨fun a b c => decode_cons_of_opcodeMap h [a, b, c], fetchFaults_of_opcodeMap h⟩

/-! ### Operand faults, as the runners answer them -/

/-- Whichever of the two sources is illegal, the fault is the same. -/
theorem runSS_of_not_legal {a b : Operand} {f : Word → Word → Effect}
    (h : a.legal .src = false ∨ b.legal .src = false) : runSS s a b f = raiseFault s .outOfRangeValue := by
  cases ha : resolve s a with
  | error k =>
    obtain ⟨-, rfl⟩ := resolve_error.mp ha
    simp [runSS, ha]
  | ok u =>
    have hla : a.legal .src = true := resolve_isOk.mp ⟨u, ha⟩
    have hlb : b.legal .src = false := h.resolve_left (by simp [hla])
    simp [runSS, ha, runS_of_not_legal hlb]

/-- An illegal destination faults before the sources are looked at (R93, decision D6). -/
theorem runDSS_of_not_legal_dst {a b c : Operand} {f : RegIx → Word → Word → Effect}
    (h : a.legal .dst = false) : runDSS s a b c f = raiseFault s .invalidRegister := by
  simp [runDSS, regix_error.mpr ⟨h, rfl⟩]

theorem runDSS_of_not_legal_src {r : RegIx} {b c : Operand} {f : RegIx → Word → Word → Effect}
    (h : b.legal .src = false ∨ c.legal .src = false) :
    runDSS s (.reg r) b c f = raiseFault s .outOfRangeValue :=
  runSS_of_not_legal h

/-! ### Instructions of format `DSS` -/

section
variable {mk : Operand → Operand → Operand → Instr}

theorem validatesDSS_of_exec {f : State → RegIx → Word → Word → Effect}
    (h : ∀ a b c s, exec (mk a b c) s = runDSS s a b c (f s)) : ValidatesDSS mk := by
  intro s
  constructor
  · intro a b c ha
    exact (h a b c s).trans (runDSS_of_not_legal_dst (legal_dst_eq_false ha))
  · intro r k c
    constructor
    · exact (h (.reg r) (.invalid k) c s).trans (runDSS_of_not_legal_src (.inl rfl))
    · exact (h (.reg r) c (.invalid k) s).trans (runDSS_of_not_legal_src (.inr rfl))

/-- A register write that falls through four cells commits, since the pc moves. -/
theorem writesDSS_of_exec {f : Word → Word → Word}
    (h : ∀ a b c s, exec (mk a b c) s = runDSS s a b c fun r u w => writeAndGo s r (f u w) 4) :
    WritesDSS mk f := by
  intro s r b c u w hu hw
  rw [h, runDSS_ok hu hw, finish_writeAndGo r (f u w) 4 (by decide) (by decide)]
  rfl

end

/-! ### The Word a comparison writes -/

/-- Words are equal exactly when their numbers are (R120). -/
theorem comparisonWord_wordsEqual (u w : Word) :
    comparisonWord (wordsEqual u w) = if u = w then 1 else 0 := by
  simp [comparisonWord, wordsEqual, BitVec.toNat_inj]

theorem comparisonWord_wordGreater (u w : Word) :
    comparisonWord (wordGreater u w) = if u.toNat > w.toNat then 1 else 0 := by
  simp [comparisonWord, wordGreater]

/-! ### The statements -/

/-- Settles O10: `eq` is row 4 of the opcode map, and its meaning is the format `DSS` over a write of the
comparison's Word. -/
theorem eqWritesOneOrZero : Obligations.EqWritesOneOrZero := by
  refine ⟨encodedThree_of_opcodeMap rfl, validatesDSS_of_exec exec_eq, writesDSS_of_exec ?_⟩
  intro a b c s
  simp only [exec_eq, comparisonWord_wordsEqual]

/-- Settles O11: `gt` is row 5 of the opcode map, and its meaning is the format `DSS` over a write of the
comparison's Word. -/
theorem gtComparesUnsigned : Obligations.GtComparesUnsigned := by
  refine ⟨encodedThree_of_opcodeMap rfl, validatesDSS_of_exec exec_gt, writesDSS_of_exec ?_⟩
  intro a b c s
  simp only [exec_gt, comparisonWord_wordGreater]

end Sys2Proof.Machine
end

section
/-! SUPPORT. The encodings of the formats `Z` and `S`, the operand faults of the formats `S` and `SS`, and how
a step that transfers control ends; then the statements on `jmp`, `jt`, `jf` and `ret` (30_encoding.md R71,
R76; 40_step_and_operands.md R93, R96; 43_control_transfer.md R130 to R132, R134, R135). -/

namespace Sys2Proof.Machine

open Claims

variable {s : State}

/-! ### Encoding, from the opcode map -/

theorem encodedZero_of_opcodeMap {n : Cell} {i : Instr} (h : opcodeMap n.toNat = some (.zero i)) :
    EncodedZero n i :=
  ⟨decode_cons_of_opcodeMap h [], fun s hs => (fetchFaults_of_opcodeMap h s hs).1⟩

theorem encodedOne_of_opcodeMap {n : Cell} {mk : Operand → Instr} (h : opcodeMap n.toNat = some (.one mk)) :
    EncodedOne n mk :=
  ⟨fun a => decode_cons_of_opcodeMap h [a], fetchFaults_of_opcodeMap h⟩

/-! ### Operand faults of instructions of format `S` and `SS` -/

theorem validatesS_of_exec {mk : Operand → Instr} {f : State → Word → Effect}
    (h : ∀ a s, exec (mk a) s = runS s a (f s)) : ValidatesS mk :=
  fun s k => (h (.invalid k) s).trans (runS_of_not_legal rfl)

theorem validatesSS_of_exec {mk : Operand → Operand → Instr} {f : State → Word → Word → Effect}
    (h : ∀ a b s, exec (mk a b) s = runSS s a b (f s)) : ValidatesSS mk := by
  intro s k a
  constructor
  · exact (h (.invalid k) a s).trans (runSS_of_not_legal (.inl rfl))
  · exact (h a (.invalid k) s).trans (runSS_of_not_legal (.inr rfl))

/-! ### Control transfer -/

section
variable {i : Instr} {t : Word}

/-- A target is a cell address as a number, and nothing checks it against `MEMLEN` (R135). -/
theorem target_eq_ofNat (t : Word) : target t = BitVec.ofNat 16 t.toNat :=
  (BitVec.ofNat_toNat 16 t).symm

/-- A transfer to another address takes the writes `u` of phase 4 (R96). -/
theorem exec_of_transfer {u : State} (h : exec i s = finish s (.commit u (target t)))
    (ht : t.toNat ≠ s.pc.toNat) : exec i s = .next { u with pc := BitVec.ofNat 16 t.toNat } := by
  rw [h, finish_commit (mt (target_eq_pc t s.pc).mp ht), target_eq_ofNat]
  rfl

/-- A transfer to the instruction's own address is `StuckPC`, and the writes `u` of phase 4 are dropped
(R96, R99). -/
theorem raises_stuckPC_of_transfer {u : State} (h : exec i s = finish s (.commit u (target t)))
    (ht : t.toNat = s.pc.toNat) : Raises i s .stuckPC := by
  rw [(target_eq_pc t s.pc).mpr ht] at h
  exact h.trans finish_stuck

/-- An instruction of three cells that jumps when `p` holds: the target matters only when it does (R131,
R132). -/
theorem exec_conditionalJump {p : Prop} [Decidable p]
    (h : exec i s = finish s (.commit s (if p then target t else s.fallThrough 3))) :
    (p → t.toNat ≠ s.pc.toNat → exec i s = .next { s with pc := BitVec.ofNat 16 t.toNat }) ∧
    (p → t.toNat = s.pc.toNat → Raises i s .stuckPC) ∧
    (¬ p → exec i s = .next { s with pc := s.pc + 3 }) := by
  by_cases hp : p
  · rw [if_pos hp] at h
    exact ⟨fun _ => exec_of_transfer h, fun _ => raises_stuckPC_of_transfer h, fun hn => absurd hp hn⟩
  · rw [if_neg hp, finish_fallThrough 3 (by decide) (by decide)] at h
    exact ⟨fun hp' => absurd hp' hp, fun hp' => absurd hp' hp, fun _ => h⟩

end

theorem isNonZero_iff (u : Word) : isNonZero u = true ↔ u.toNat ≠ 0 := bne_iff_ne

theorem exec_ret_of_nil (h : s.stack = []) : exec .ret s = .next s.haltNormal := by
  rw [exec_ret, popWord_none.mpr h]
  rfl

theorem exec_ret_of_cons {t : Word} {st : List Word} (h : s.stack = t :: st) :
    exec .ret s = finish s (.commit (s.setStack st) (target t)) := by
  rw [exec_ret, popWord_some.mpr ⟨st, h, rfl⟩]

/-! ### The statements -/

/-- Settles O12: `jmp` is row 6 of the opcode map, and its meaning is the format `S` over a transfer that
writes nothing. -/
theorem jmpGoesToTarget : Obligations.JmpGoesToTarget := by
  refine ⟨encodedOne_of_opcodeMap rfl, validatesS_of_exec exec_jmp, ?_⟩
  intro s a t ht
  have h := (exec_jmp a s).trans (runS_ok ht)
  exact ⟨exec_of_transfer h, raises_stuckPC_of_transfer h⟩

/-- Settles O13: `jt` is row 7 of the opcode map, and its meaning is the format `SS` over a jump that is
taken on a value other than 0. -/
theorem jtJumpsWhenNonZero : Obligations.JtJumpsWhenNonZero := by
  refine ⟨encodedTwo_of_opcodeMap rfl, validatesSS_of_exec exec_jt, ?_⟩
  intro s a b u t hu ht
  have h := exec_conditionalJump ((exec_jt a b s).trans (runSS_ok hu ht))
  simpa only [isNonZero_iff, not_not] using h

/-- Settles O14: `jf` is row 8 of the opcode map, and its meaning is the format `SS` over a jump that is
taken on the value 0. -/
theorem jfJumpsWhenZero : Obligations.JfJumpsWhenZero := by
  refine ⟨encodedTwo_of_opcodeMap rfl, validatesSS_of_exec exec_jf, ?_⟩
  intro s a b u t hu ht
  apply exec_conditionalJump
  rw [exec_jf, runSS_ok hu ht]
  simp only [isNonZero_iff, ne_eq, ite_not]

/-- Settles O16: `ret` is row 18 of the opcode map; on an empty stack it halts normally, and otherwise it is
a transfer to the top whose one write is the rest of the stack. -/
theorem retPopsOrHaltsNormally : Obligations.RetPopsOrHaltsNormally := by
  refine ⟨encodedZero_of_opcodeMap rfl, fun s => ⟨exec_ret_of_nil, ?_, ?_⟩⟩
  · intro t st hst
    exact exec_of_transfer (exec_ret_of_cons hst)
  · intro t st hst
    exact raises_stuckPC_of_transfer (exec_ret_of_cons hst)

end Sys2Proof.Machine
end

section
/-! SUPPORT. What reducing an exact result and complementing a Word amount to as numbers; then the statements
on `add`, `mult`, `and`, `or` and `not` (30_encoding.md R71, R76; 40_step_and_operands.md R93; 44_alu.md R140,
R141, R143 to R146). -/

namespace Sys2Proof.Machine

open Claims

/-! ### The Word a computation writes -/

/-- Keeping the bits [14:0] of an exact result is taking it modulo 32768 (R146). -/
theorem reduce_eq_ofNat_mod (n : Nat) : reduce n = BitVec.ofNat 15 (n % 32768) :=
  BitVec.eq_of_toNat_eq (Nat.mod_mod n 32768).symm

/-- Exclusive-or with 0x7FFF flips all 15 bits of a Word (R145). -/
theorem toNat_xor_0x7FFF (u : Word) : (u ^^^ 0x7FFF#15).toNat = 32767 - u.toNat := by
  have hones : 0x7FFF#15 = BitVec.allOnes 15 := rfl
  rw [hones, BitVec.xor_allOnes, BitVec.toNat_not]

/-! ### The statements -/

/-- Settles O17: `add` is row 9 of the opcode map, and its meaning is the format `DSS` over a write of the
reduced sum. -/
theorem addWrapsModulo32768 : Obligations.AddWrapsModulo32768 := by
  refine ⟨encodedThree_of_opcodeMap rfl, validatesDSS_of_exec exec_add, writesDSS_of_exec ?_⟩
  intro a b c s
  simp only [exec_add, reduce_eq_ofNat_mod]

/-- Settles O18: `mult` is row 10 of the opcode map, and its meaning is the format `DSS` over a write of the
reduced product. -/
theorem multReducesExactProduct : Obligations.MultReducesExactProduct := by
  refine ⟨encodedThree_of_opcodeMap rfl, validatesDSS_of_exec exec_mult, writesDSS_of_exec ?_⟩
  intro a b c s
  simp only [exec_mult, reduce_eq_ofNat_mod]

/-- Settles O20: `and` is row 12 of the opcode map, and its meaning is the format `DSS` over a write of the
conjunction of the Words. -/
theorem andIsBitwise : Obligations.AndIsBitwise := by
  refine ⟨encodedThree_of_opcodeMap rfl, validatesDSS_of_exec exec_and, ?_⟩
  intro s r b c u w hu hw
  exact ⟨u &&& w, fun _ _ => BitVec.getLsbD_and, writesDSS_of_exec exec_and s r b c u w hu hw⟩

/-- Settles O21: `or` is row 13 of the opcode map, and its meaning is the format `DSS` over a write of the
disjunction of the Words. -/
theorem orIsBitwise : Obligations.OrIsBitwise := by
  refine ⟨encodedThree_of_opcodeMap rfl, validatesDSS_of_exec exec_or, ?_⟩
  intro s r b c u w hu hw
  exact ⟨u ||| w, fun _ _ => BitVec.getLsbD_or, writesDSS_of_exec exec_or s r b c u w hu hw⟩

/-- Settles O22: `not` is row 14 of the opcode map, and its meaning is the format `DS` over a write of the
complement of the Word. -/
theorem notIsFifteenBitComplement : Obligations.NotIsFifteenBitComplement := by
  refine ⟨encodedTwo_of_opcodeMap rfl, validatesDS_of_exec exec_not, ?_⟩
  intro s r b u hu
  exact ⟨u ^^^ 0x7FFF#15, rfl, toNat_xor_0x7FFF u, writesDS_of_exec exec_not s r b u hu⟩

end Sys2Proof.Machine
end

section
/-! SUPPORT. What `wmem` answers with both operands resolved, at or beyond `MEMLEN` and below it; then the
statement on `wmem` (30_encoding.md R71, R76; 40_step_and_operands.md R93; 45_memory_access.md R151). -/

namespace Sys2Proof.Machine

open Claims

section
variable {s : State} {a b : Operand} {addr v : Word}

theorem raises_addressOutOfBounds_of_wmem (ha : resolve s a = .ok addr) (hb : resolve s b = .ok v)
    (hlen : s.memLen.val ≤ addr.toNat) : Raises (.wmem a b) s .addressOutOfBounds := by
  have hw : memWrite s addr.toNat v = .error .addressOutOfBounds := memWrite_error.mpr ⟨hlen, rfl⟩
  have he : exec (.wmem a b) s = finish s (.raise .addressOutOfBounds) := by
    rw [exec_wmem, runSS_ok ha hb, hw]
  exact he

/-- Below `MEMLEN` the store always commits, since `wmem` falls through. -/
theorem exec_wmem_of_lt (ha : resolve s a = .ok addr) (hb : resolve s b = .ok v)
    (hlen : addr.toNat < s.memLen.val) : exec (.wmem a b) s =
      .next ((s.writeCell addr.toNat (v.setWidth 16)).setPc (s.fallThrough 3)) := by
  have hw : memWrite s addr.toNat v = .ok (s.writeCell addr.toNat (v.setWidth 16)) :=
    memWrite_ok.mpr ⟨hlen, rfl⟩
  rw [exec_wmem, runSS_ok ha hb, hw]
  exact finish_fallThrough 3 (by decide) (by decide)

end

/-- Settles O24: `wmem` is row 16 of the opcode map, and its meaning is the format `SS` over a bounds check
and a store, read back cell by cell. -/
theorem wmemStoresWholeCell : Obligations.WmemStoresWholeCell := by
  refine ⟨encodedTwo_of_opcodeMap rfl, validatesSS_of_exec exec_wmem, ?_⟩
  intro s a b addr v ha hb
  constructor
  · exact raises_addressOutOfBounds_of_wmem ha hb
  · intro hlen hwf
    refine ⟨s.mem.store addr.toNat (v.setWidth 16), exec_wmem_of_lt ha hb hlen, fun k => ?_⟩
    rw [Memory.cellAt_store _ _ _ _ hwf, BitVec.ofNat_toNat]
    rfl

end Sys2Proof.Machine
end

section
/-! SUPPORT. The statements on `halt` and `noop` (30_encoding.md R71, R76; 40_step_and_operands.md R91, R96;
46_system_io.md R160, R161). -/

namespace Sys2Proof.Machine

/-- Settles O25: `halt` is row 0 of the opcode map, and its phase 4 only ends the run normally. -/
theorem haltEndsNormally : Obligations.HaltEndsNormally :=
  ⟨encodedZero_of_opcodeMap rfl, exec_halt⟩

/-- Settles O26: `noop` is row 21 of the opcode map, and its meaning is a commit that writes nothing and falls
through one cell, which always moves the pc. -/
theorem noopOnlyAdvances : Obligations.NoopOnlyAdvances := by
  refine ⟨encodedZero_of_opcodeMap rfl, fun s => ?_⟩
  rw [exec_noop, finish_fallThrough 1 (by decide) (by decide)]
  rfl

end Sys2Proof.Machine
end

section
/-! SUPPORT. Which steps end the run normally: `halt` and `ret` on an empty stack do, and a step that does is
one of them; then the statement on the normal halt (60_exceptions.md R178). -/

namespace Sys2Proof.Machine

variable {s t u : State} {i : Instr} {npc : Pc}

/-- No write of an instruction touches the status: only the end of the step does. -/
theorem Commits.status_eq (h : Commits s i u npc) : u.status = s.status := by
  cases h <;> rfl

/-- `t` ends an instruction normally only by the arm of `Ends` that is a normal halt. -/
theorem Ends.of_haltedNormal (h : Ends s i t) (hs : s.status = .running) (ht : t.status = .haltedNormal) :
    (i = .halt ∨ (i = .ret ∧ s.stack = [])) ∧ t = s.haltNormal := by
  cases h with
  | halt hi he => exact ⟨hi, he⟩
  | fault k _ he _ => simp [he] at ht
  | wait r _ _ he => simp [he, hs] at ht
  | commit u npc hc _ he => simp [he, hc.status_eq, hs] at ht

/-- A step that ends the run normally fetched `halt`, or `ret` with an empty stack: a fetch fault and every
other end of an instruction leave another status. -/
theorem fetch_of_haltedNormal (hs : s.status = .running) (h : step s = .next t)
    (ht : t.status = .haltedNormal) :
    (fetch s = .ok .halt ∨ (fetch s = .ok .ret ∧ s.stack = [])) ∧ t = s.haltNormal := by
  rcases step_running_cases hs h with ⟨i, hf, he⟩ | ⟨-, rfl⟩ | ⟨_, -, rfl⟩ | ⟨_, -, rfl⟩
  · obtain ⟨rfl | ⟨rfl, hst⟩, hn⟩ := he.of_haltedNormal hs ht
    · exact ⟨.inl hf, hn⟩
    · exact ⟨.inr ⟨hf, hst⟩, hn⟩
  all_goals simp at ht

/-- The two instructions that halt normally do so (R134, R160). -/
theorem step_haltNormal_of_fetch (hs : s.status = .running)
    (h : fetch s = .ok .halt ∨ (fetch s = .ok .ret ∧ s.stack = [])) : step s = .next s.haltNormal := by
  rcases h with hf | ⟨hf, hst⟩
  · rw [step_of_fetch_ok hs hf, exec_halt]
    rfl
  · rw [step_of_fetch_ok hs hf, exec_ret_of_nil hst]

/-- Settles O35: a step ends the run normally exactly on the two instructions, its state is then the one
before with another status, and the record stays what the invariant says of a machine not halted by a fault. -/
theorem normalHaltOnlyByHaltOrRet : Obligations.NormalHaltOnlyByHaltOrRet := by
  intro s t hinv hs h
  refine ⟨⟨fun ht => (fetch_of_haltedNormal hs h ht).1, fun hf => ?_⟩, fun ht => ?_⟩
  · have hn : t = s.haltNormal :=
      Host.Outcome.next.inj (h.symm.trans (step_haltNormal_of_fetch hs hf))
    rw [hn, State.haltNormal_status]
  · obtain ⟨-, rfl⟩ := fetch_of_haltedNormal hs h ht
    exact ⟨rfl, hinv.noRecord (by simp [hs])⟩

end Sys2Proof.Machine
end

section
/-! SUPPORT. The decoder undoes the encoder whatever cells follow, and refuses a run of cells by name; then the
statements on the encoding (30_encoding.md rules R70 to R80). -/

namespace Sys2Proof

/-- An instruction's opcode cell selects the shape that takes its own operand cells off the front (R70, R76). -/
theorem decode_encode_append (i : Instr) (rest : List Cell) : decode (encode i ++ rest) = .ok (i, rest) := by
  cases i <;> simp [encode, decode, Instr.opcode, Instr.operands, opcodeMap, takeOperands]

/-- A value that the opcode map does not know is above 21 (R78). -/
theorem lt_of_opcodeMap_eq_none {n : Nat} (h : opcodeMap n = none) : 21 < n := by
  by_contra hn
  obtain ⟨sh, hsh⟩ := Machine.opcodeMap_isSome.mpr (Nat.le_of_not_lt hn)
  simp [h] at hsh

/-- The three ways in which a run of cells is no instruction (R75, R78, R92). -/
theorem decode_error_cases {cs : List Cell} {e : DecodeError} (h : decode cs = .error e) :
    (cs = [] ∧ e = .noOpcode) ∨
    ∃ op r, cs = op :: r ∧
      ((21 < op.toNat ∧ e = .illegalOpcode op) ∨
        ∃ sh, opcodeMap op.toNat = some sh ∧ r.length < sh.count ∧ e = .missingOperand op) := by
  cases cs with
  | nil => cases h; exact .inl ⟨rfl, rfl⟩
  | cons op r =>
    refine .inr ⟨op, r, rfl, ?_⟩
    cases hm : opcodeMap op.toNat with
    | none =>
      have hop := lt_of_opcodeMap_eq_none hm
      rw [decode_cons_illegal hop] at h
      cases h
      exact .inl ⟨hop, rfl⟩
    | some sh =>
      rw [decode_cons_of_opcodeMap hm] at h
      obtain ⟨rfl, hlen⟩ := Machine.takeOperands_error h
      exact .inr ⟨sh, rfl, hlen, rfl⟩

namespace Machine

/-- Settles O1: each instruction's opcode and written operands read back. -/
theorem decodeOfEncodeIsIdentity : Obligations.DecodeOfEncodeIsIdentity :=
  decode_encode_append

/-- Settles O2: the opcode map and the encoder agree on every shape. -/
theorem decodedCellsAreTheEncoding : Obligations.DecodedCellsAreTheEncoding :=
  fun _ _ _ => eq_encode_append_of_decode

/-- Settles O3: the three refusals of the decoder exclude each other, and the table of roles has as many roles
for an opcode as the decoder takes operand cells. -/
theorem decodeRejectsByName : Obligations.DecodeRejectsByName := by
  intro cs
  refine ⟨⟨fun h => ?_, fun h => ?_⟩, fun op => ⟨fun h => ?_, ?_⟩, fun op => ⟨fun h => ?_, ?_⟩⟩
  · obtain ⟨hnil, -⟩ | ⟨_, _, -, ⟨-, he⟩ | ⟨_, -, -, he⟩⟩ := decode_error_cases h
    · exact hnil
    all_goals cases he
  · rw [h]; rfl
  · obtain ⟨-, he⟩ | ⟨op', r, hcs, ⟨hop, he⟩ | ⟨_, -, -, he⟩⟩ := decode_error_cases h
    all_goals cases he
    exact ⟨r, hcs, hop⟩
  · rintro ⟨r, rfl, hop⟩
    exact decode_cons_illegal hop r
  · obtain ⟨-, he⟩ | ⟨op', r, hcs, ⟨-, he⟩ | ⟨sh, hm, hlen, he⟩⟩ := decode_error_cases h
    all_goals cases he
    obtain ⟨roles, hr, hc⟩ := matrixRoles_of_opcodeMap hm
    exact ⟨r, roles, hcs, hr, hc ▸ hlen⟩
  · rintro ⟨r, roles, rfl, hr, hlen⟩
    obtain ⟨sh, hm, hc⟩ := opcodeMap_of_matrixRoles hr
    rw [decode_cons_of_opcodeMap hm, takeOperands_missing (hc ▸ hlen)]

/-- Settles O4: the decoder evaluated on the ten runs of cells. -/
theorem writtenOutWordsDecode : Obligations.WrittenOutWordsDecode :=
  ⟨rfl, rfl, rfl, rfl, rfl, rfl, rfl, rfl, rfl, rfl⟩

end Machine
end Sys2Proof
end

section
/-! SUPPORT. What the instructions with faults of their own in phase 4 answer, clause by clause; then the
statements on `push`, `pop`, `call`, `mod`, `rmem`, `out` and `in` (41_data_movement.md R111, R112;
43_control_transfer.md R133; 44_alu.md R142; 45_memory_access.md R150; 46_system_io.md R162, R163), and on
`push` with `pop` and `call` with `ret` in a row (70_reset_and_hazards.md R208). -/

namespace Sys2Proof.Machine

open Claims

variable {s : State} {a : Operand}

/-! ### The stack -/

theorem pushWord_of_room {v : Word} (h : Room s) : pushWord s v = .ok (s.setStack (v :: s.stack)) :=
  pushWord_ok.mpr ⟨hasRoom_iff.mpr h, rfl⟩

theorem hasRoom_eq_false_of_full (h : Full s) : s.hasRoom = false := by
  rw [Full] at h
  simp [State.hasRoom, h]

theorem pushWord_of_full {v : Word} (h : Full s) : pushWord s v = .error .stackOverflow :=
  pushWord_error.mpr ⟨hasRoom_eq_false_of_full h, rfl⟩

theorem exec_push_of_room {v : Word} (ha : resolve s a = .ok v) (h : Room s) :
    exec (.push a) s = .next { s with stack := v :: s.stack, pc := s.pc + 2 } := by
  rw [exec_push, runS_ok ha, pushWord_of_room h]
  exact finish_fallThrough 2 (by decide) (by decide)

theorem exec_pop_of_cons {r : RegIx} {v : Word} {st : List Word} (h : s.stack = v :: st) :
    exec (.pop (.reg r)) s = .next { s with x := s.x.set r.val v r.isLt, stack := st, pc := s.pc + 2 } := by
  rw [exec_pop, runD_reg, popWord_some.mpr ⟨st, h, rfl⟩]
  exact finish_fallThrough 2 (by decide) (by decide)

/-- Format `D`: whatever phase 4 is, anything but a register faults first (R93). -/
theorem validatesD_of_exec {mk : Operand → Instr} {f : State → RegIx → Effect}
    (h : ∀ a s, exec (mk a) s = runD s a (f s)) : ValidatesD mk := by
  intro s a ha
  refine (h a s).trans ?_
  rw [runD, regix_error.mpr ⟨legal_dst_eq_false ha, rfl⟩]
  rfl

/-- Settles O8: `push` is row 2 of the opcode map, and its meaning is the format `S` over a push that fits or
overflows. -/
theorem pushPutsValueOnTop : Obligations.PushPutsValueOnTop := by
  refine ⟨encodedOne_of_opcodeMap rfl, validatesS_of_exec exec_push, ?_⟩
  intro s a v ha
  refine ⟨exec_push_of_room ha, fun hfull => ?_⟩
  rw [Raises, exec_push, runS_ok ha, pushWord_of_full hfull]
  rfl

/-- Settles O9: `pop` is row 3 of the opcode map, and its meaning is the format `D` over taking the top, which
an empty stack does not have. -/
theorem popTakesTopOrUnderflows : Obligations.PopTakesTopOrUnderflows := by
  refine ⟨encodedOne_of_opcodeMap rfl, validatesD_of_exec exec_pop, ?_⟩
  intro s r
  refine ⟨fun v st => exec_pop_of_cons, fun hnil => ?_⟩
  rw [Raises, exec_pop, runD_reg, popWord_none.mpr hnil]
  rfl

/-- Settles O50: the `pop` finds the pushed value on top of a stack that is otherwise as it was. -/
theorem pushThenPopReturnsTheValue : Obligations.PushThenPopReturnsTheValue := by
  intro s a r v ha hroom
  exact ⟨_, exec_push_of_room ha hroom, exec_pop_of_cons rfl⟩

/-! ### `call` -/

/-- With a return address and room, `call` is a transfer whose one write is the push (R133). -/
theorem exec_call_of_room {t : Word} (ha : resolve s a = .ok t) (hp : s.pc.toNat + 2 ≤ 32767) (h : Room s) :
    exec (.call a) s =
      finish s (.commit (s.setStack (BitVec.ofNat 15 (s.pc.toNat + 2) :: s.stack)) (target t)) := by
  simp only [exec_call, runS_ok ha, returnAddress_ok.mpr ⟨hp, rfl⟩, pushWord_of_room h]

/-- Settles O15: `call` is row 17 of the opcode map, and its meaning is the format `S` over the return address,
the push and the transfer, in that order. -/
theorem callPushesReturnAddress : Obligations.CallPushesReturnAddress := by
  refine ⟨encodedOne_of_opcodeMap rfl, validatesS_of_exec exec_call, ?_⟩
  intro s a t ha
  refine ⟨fun hp => ?_, fun hp hfull => ?_, fun hp hroom => ?_, fun hp hroom => ?_⟩
  · rw [Raises, exec_call, runS_ok ha, returnAddress_error.mpr ⟨hp, rfl⟩]
    rfl
  · simp only [Raises, exec_call, runS_ok ha, returnAddress_ok.mpr ⟨hp, rfl⟩, pushWord_of_full hfull]
    rfl
  · exact raises_stuckPC_of_transfer (exec_call_of_room ha hp hroom)
  · exact exec_of_transfer (exec_call_of_room ha hp hroom)

/-- Settles O51: a `call` that commits left its return address on top, and `ret` anywhere else goes there. -/
theorem callThenRetComesBack : Obligations.CallThenRetComesBack := by
  intro s t u a hcall hstatus hstack hpc
  have hcommit : t.stack = BitVec.ofNat 15 (s.pc.toNat + 2) :: s.stack ∧ s.pc.toNat + 2 ≤ 32767 := by
    cases exec_ends hcall with
    | fault k _ ht _ => simp [ht] at hstatus
    | halt hi _ => simp at hi
    | wait r hi _ _ => cases hi
    | commit v npc hc _ ht =>
      cases hc with
      | call _ hp _ => exact ⟨by rw [ht]; rfl, hp⟩
  obtain ⟨htop, hp⟩ := hcommit
  have hret : (BitVec.ofNat 15 (s.pc.toNat + 2)).toNat = s.pc.toNat + 2 := by
    rw [BitVec.toNat_ofNat, Nat.mod_eq_of_lt (by omega)]
  rw [exec_of_transfer (exec_ret_of_cons (hstack.trans htop)) (by rw [hret]; exact hpc.symm), hret,
    BitVec.ofNat_add, BitVec.ofNat_toNat, BitVec.setWidth_eq]
  rfl

/-! ### `mod` -/

/-- A remainder by a Word other than 0 is a Word: nothing is lost in the reduction. -/
theorem reduce_mod_toNat {u w : Word} (h : w.toNat ≠ 0) :
    (reduce (u.toNat % w.toNat)).toNat = u.toNat % w.toNat := by
  have hlt := Nat.mod_lt u.toNat (Nat.pos_of_ne_zero h)
  have hw := w.isLt
  rw [reduce, BitVec.toNat_ofNat, Nat.mod_eq_of_lt (by omega)]

/-- Settles O19: `mod` is row 11 of the opcode map, and its meaning is the format `DSS` over a test of the
divisor and a write of the remainder. -/
theorem modIsUnsignedRemainder : Obligations.ModIsUnsignedRemainder := by
  refine ⟨encodedThree_of_opcodeMap rfl, validatesDSS_of_exec exec_mod, ?_⟩
  intro s r b c u w hu hw
  constructor
  · intro h0
    simp only [Raises, exec_mod, runDSS_ok hu hw, h0, if_true]
    rfl
  · intro h0
    refine ⟨reduce (u.toNat % w.toNat), reduce_mod_toNat h0, ?_, ?_⟩
    · rw [reduce_mod_toNat h0]
      exact Nat.mod_lt _ (Nat.pos_of_ne_zero h0)
    · simp only [exec_mod, runDSS_ok hu hw, h0, if_false]
      exact finish_writeAndGo r _ 4 (by decide) (by decide)

/-! ### `rmem` -/

/-- Settles O23: `rmem` is row 15 of the opcode map, and its meaning is the format `DS` over a bounds check, a
range check of the cell and a register write. -/
theorem rmemLoadsCell : Obligations.RmemLoadsCell := by
  refine ⟨encodedTwo_of_opcodeMap rfl, validatesDS_of_exec exec_rmem, ?_⟩
  intro s r b addr hb
  refine ⟨fun hlen => ?_, fun hlen hcell => ?_, fun hlen hcell => ?_⟩
  · rw [Raises, exec_rmem, runDS_ok hb, memRead_error.mpr ⟨hlen, rfl⟩]
    rfl
  · simp only [Raises, exec_rmem, runDS_ok hb, memRead_ok.mpr ⟨hlen, rfl⟩, wordOfCell_error.mpr ⟨hcell, rfl⟩]
    rfl
  · simp only [exec_rmem, runDS_ok hb, memRead_ok.mpr ⟨hlen, rfl⟩, wordOfCell_ok.mpr ⟨hcell, rfl⟩,
      BitVec.ofNat_toNat]
    exact finish_writeAndGo r _ 3 (by decide) (by decide)

/-! ### The character ports -/

theorem exec_inp_of_cons {r : RegIx} {ch : Word} {cs : List Word} (h : s.input = ch :: cs) :
    exec (.inp (.reg r)) s = .next { s with x := s.x.set r.val ch r.isLt, input := cs, pc := s.pc + 2 } := by
  rw [exec_inp, runD_reg, takeChar_some.mpr ⟨cs, h, rfl⟩]
  exact finish_fallThrough 2 (by decide) (by decide)

/-- Settles O27: `out` is row 19 of the opcode map, and its meaning is the format `S` over sending the
character. -/
theorem outSendsOneCharacter : Obligations.OutSendsOneCharacter := by
  refine ⟨encodedOne_of_opcodeMap rfl, validatesS_of_exec exec_out, ?_⟩
  intro s a c ha
  rw [exec_out, runS_ok ha]
  exact finish_fallThrough 2 (by decide) (by decide)

/-- Settles O28: `in` is row 20 of the opcode map, and its meaning is the format `D` over taking a character;
what is delivered while it waits stands first in an input that was empty. -/
theorem inReceivesOrWaits : Obligations.InReceivesOrWaits := by
  refine ⟨encodedOne_of_opcodeMap rfl, validatesD_of_exec exec_inp, ?_⟩
  intro s r
  refine ⟨fun c cs => exec_inp_of_cons, fun hnil => ?_, fun hnil c cs => ?_⟩
  · rw [exec_inp, runD_reg, takeChar_none.mpr hnil]
    rfl
  · have hin : (deliver (c :: cs) s).input = c :: cs := by simp [deliver, hnil]
    exact exec_inp_of_cons hin

end Sys2Proof.Machine
end

section
/-! SUPPORT. What one step can do, halted and running cores together, said once; then the statements on single
steps: which instruction runs, that a next state always exists, how a step faults, and how the pc moves
(40_step_and_operands.md R90 to R102, 10_state.md R25, 60_exceptions.md R176). -/

namespace Sys2Proof.Machine

variable {s t u : State} {i : Instr} {npc : Pc}

/-! ### A step always answers a next state -/

theorem exists_finish_next (s : State) (e : Effect) : ∃ t, finish s e = .next t := by
  cases e with
  | commit u npc =>
    by_cases hn : npc = s.pc
    · exact ⟨_, hn ▸ finish_stuck⟩
    · exact ⟨_, finish_commit hn⟩
  | haltNormal => exact ⟨_, rfl⟩
  | raise k => exact ⟨_, rfl⟩
  | wait => exact ⟨_, rfl⟩

theorem exists_runS_next (s : State) (a : Operand) (f : Word → Effect) : ∃ t, runS s a f = .next t := by
  unfold runS
  split
  · exact ⟨_, rfl⟩
  · exact exists_finish_next s _

theorem exists_runD_next (s : State) (a : Operand) (f : RegIx → Effect) : ∃ t, runD s a f = .next t := by
  unfold runD
  split
  · exact ⟨_, rfl⟩
  · exact exists_finish_next s _

theorem exists_runDS_next (s : State) (a b : Operand) (f : RegIx → Word → Effect) :
    ∃ t, runDS s a b f = .next t := by
  unfold runDS
  split
  · exact ⟨_, rfl⟩
  · exact exists_runS_next s b _

theorem exists_runSS_next (s : State) (a b : Operand) (f : Word → Word → Effect) :
    ∃ t, runSS s a b f = .next t := by
  unfold runSS
  split
  · exact ⟨_, rfl⟩
  · exact exists_runS_next s b _

theorem exists_runDSS_next (s : State) (a b c : Operand) (f : RegIx → Word → Word → Effect) :
    ∃ t, runDSS s a b c f = .next t := by
  unfold runDSS
  split
  · exact ⟨_, rfl⟩
  · exact exists_runSS_next s b c _

/-- Every instruction answers a next state, since its format does. -/
theorem exists_exec_next (i : Instr) (s : State) : ∃ t, exec i s = .next t := by
  cases i with
  | halt => exact exists_finish_next s .haltNormal
  | noop => exact exists_finish_next s (.commit s (s.fallThrough 1))
  | ret => exact exists_finish_next s _
  | push a | jmp a | call a | out a => exact exists_runS_next s a _
  | pop a | inp a => exact exists_runD_next s a _
  | set a b | not a b | rmem a b => exact exists_runDS_next s a b _
  | jt a b | jf a b | wmem a b => exact exists_runSS_next s a b _
  | eq a b c | gt a b c | add a b c | mult a b c | mod a b c | and a b c | or a b c =>
    exact exists_runDSS_next s a b c _

theorem exists_fetchFault_next (s : State) (e : DecodeError) : ∃ t, fetchFault s e = .next t := by
  cases e <;> exact ⟨_, rfl⟩

/-- Settles O32: a halted core idles, and a running one takes the fault of the fetch or executes what was
fetched, each of which answers a next state. -/
theorem everyStepAnswersANextState : Obligations.EveryStepAnswersANextState := by
  intro s
  by_cases hs : s.status = .running
  · cases hf : fetch s with
    | ok i => rw [step_of_fetch_ok hs hf]; exact exists_exec_next i s
    | error e => rw [step_of_fetch_error hs hf]; exact exists_fetchFault_next s e
  · exact ⟨s, step_halted hs⟩

/-! ### What a step can do -/

/-- The ways a step can end, whatever the status: nothing changes (a halted core, an `in` that waits), a fault
is taken, the run ends normally, or an instruction commits. -/
inductive StepEnds (s t : State) : Prop where
  | idle (hs : s.status = .running → s.waiting) (ht : t = s)
  | fault (hs : s.status = .running) (k : FaultKind) (v : Bool) (hk : k ≠ .noFault)
      (hv : v = false ↔ s.memLen.val ≤ s.pc.toNat) (ha : v = false → k = .addressOutOfBounds)
      (ho : k = .stackOverflow → s.hasRoom = false) (ht : t = s.takeFault k v)
  | halt (hs : s.status = .running) (ht : t = s.haltNormal)
  | commit (hs : s.status = .running) (i : Instr) (hf : fetch s = .ok i) (u : State) (npc : Pc)
      (hc : Commits s i u npc) (hn : npc ≠ s.pc) (ht : t = u.setPc npc)

/-- Once the opcode cell exists, a fault has `FOPV` 1 (R92, R102). -/
theorem StepEnds.of_fault_true (hs : s.status = .running) {k : FaultKind} (hk : k ≠ .noFault)
    (hp : s.pc.toNat < s.memLen.val) (ho : k = .stackOverflow → s.hasRoom = false)
    (ht : t = s.takeFault k true) : StepEnds s t :=
  .fault hs k true hk (by simpa using hp) (by simp) ho ht

/-- Everything a step can do (R90, R101, R102). -/
theorem step_ends (h : step s = .next t) : StepEnds s t := by
  by_cases hs : s.status = .running
  · rcases step_running_cases hs h with ⟨i, hf, he⟩ | ⟨hf, ht⟩ | ⟨op, hf, ht⟩ | ⟨op, hf, ht⟩
    · cases he with
      | fault k hk ht ho =>
        have hp := fetch_ok_bound hf
        exact .of_fault_true hs hk (by omega) ho ht
      | halt _ ht => exact .halt hs ht
      | wait r hi hin ht => exact .idle (fun _ => ⟨hs, hin, r, hi ▸ hf⟩) ht
      | commit u npc hc hn ht => exact .commit hs i hf u npc hc hn ht
    · exact .fault hs _ false (by decide) (by simp [fetch_noOpcode.mp hf]) (fun _ => rfl) (by simp) ht
    · exact .of_fault_true hs (by decide) (fetch_error_bound hf (by simp)) (by simp) ht
    · exact .of_fault_true hs (by decide) (fetch_error_bound hf (by simp)) (by simp) ht
  · rw [step_halted hs] at h
    cases h
    exact .idle (fun hr => absurd hr hs) rfl

/-- Settles O29: such cells are what a fetch reads. -/
theorem stepRunsTheDecodedInstruction : Obligations.StepRunsTheDecodedInstruction :=
  fun _ _ rest hs hd => step_of_fetch_ok hs (fetch_ok.mpr ⟨rest, hd⟩)

/-- Settles O30: such a fetch finds no opcode cell. -/
theorem fetchBeyondMemoryFaults : Obligations.FetchBeyondMemoryFaults :=
  fun _ hs hp => step_of_fetch_error hs (fetch_noOpcode.mpr hp)

/-- Settles O34: of the ways a step can end only the fault leaves that status, and it writes the record
alone. -/
theorem faultsArePrecise : Obligations.FaultsArePrecise := by
  intro s t hs h ht
  cases step_ends h with
  | idle _ he => simp [he, hs] at ht
  | fault _ k v hk hv _ _ he => exact ⟨k, v, hk, hv, he⟩
  | halt _ he => simp [he] at ht
  | commit _ i _ u npc hc _ he => simp [he, hc.status_eq, hs] at ht

/-! ### The program counter -/

/-- A waiting core's step changes nothing (R100). -/
theorem step_of_waiting (h : s.waiting) : step s = .next s := by
  obtain ⟨hs, hin, r, hf⟩ := h
  rw [step_of_fetch_ok hs hf, exec_inp, runD_reg, takeChar_none.mpr hin]
  rfl

/-- Settles O36: a core still running waited with nothing changed, or committed with a pc other than the old
one (R96). -/
theorem runningStepMovesPcOrWaits : Obligations.RunningStepMovesPcOrWaits := by
  intro s t hs h ht
  have hwait : s.waiting → t = s := fun hw => Host.Outcome.next.inj (h.symm.trans (step_of_waiting hw))
  refine ⟨⟨fun hpc => ?_, fun hw => by rw [hwait hw]⟩, hwait⟩
  cases step_ends h with
  | idle hw _ => exact hw hs
  | fault _ k v _ _ _ _ he => simp [he] at ht
  | halt _ he => simp [he] at ht
  | commit _ i _ u npc _ hn he => exact absurd (by simpa [he] using hpc) hn

/-- The next pc of a commit is the address after the instruction, or a Word the transfer resolved or popped
(R25, R135). -/
theorem Commits.npc_cases (h : Commits s i u npc) :
    npc = s.fallThrough (i.operandCount + 1) ∨
    ((∃ w, npc = target w) ∧ ((∃ a, i = .jmp a) ∨ (∃ a b, i = .jt a b) ∨ (∃ a b, i = .jf a b) ∨
      (∃ a, i = .call a) ∨ i = .ret)) := by
  cases h with
  | jmp _ => exact .inr ⟨⟨_, rfl⟩, .inl ⟨_, rfl⟩⟩
  | @jt _ _ u w _ _ =>
    by_cases hu : isNonZero u = true
    · exact .inr ⟨⟨w, if_pos hu⟩, .inr (.inl ⟨_, _, rfl⟩)⟩
    · exact .inl (if_neg hu)
  | @jf _ _ u w _ _ =>
    by_cases hu : isNonZero u = true
    · exact .inl (if_pos hu)
    · exact .inr ⟨⟨w, if_neg hu⟩, .inr (.inr (.inl ⟨_, _, rfl⟩))⟩
  | call _ _ _ => exact .inr ⟨⟨_, rfl⟩, .inr (.inr (.inr (.inl ⟨_, rfl⟩)))⟩
  | ret _ => exact .inr ⟨⟨_, rfl⟩, .inr (.inr (.inr (.inr rfl)))⟩
  | _ => exact .inl rfl

/-- The cells of a fetched instruction exist, so the address after it is at most `MEMLEN` (R25). -/
theorem fallThrough_toNat_of_fetch (hf : fetch s = .ok i) :
    (s.fallThrough (i.operandCount + 1)).toNat = s.pc.toNat + i.operandCount + 1 := by
  have hbound := fetch_ok_bound hf
  have hlen : s.memLen.val < 32769 := s.memLen.isLt
  simp only [State.fallThrough, BitVec.toNat_add, BitVec.toNat_ofNat]
  omega

/-- Settles O37: a commit of no transfer falls through, and the sum is an address that exists or `MEMLEN`. -/
theorem pcAdvancesByTheLength : Obligations.PcAdvancesByTheLength := by
  intro s t i hs hf h ht hwait hjmp hjt hjf hcall hret
  cases step_ends h with
  | idle hw _ => exact absurd (hw hs) hwait
  | fault _ k v _ _ _ _ he => simp [he] at ht
  | halt _ he => simp [he] at ht
  | commit _ j hfj u npc hc _ he =>
    obtain rfl : j = i := Except.ok.inj (hfj.symm.trans hf)
    have hnpc : npc = s.fallThrough (j.operandCount + 1) := by
      refine hc.npc_cases.resolve_right ?_
      rintro ⟨-, ⟨a, hi⟩ | ⟨a, b, hi⟩ | ⟨a, b, hi⟩ | ⟨a, hi⟩ | hi⟩
      · exact hjmp a hi
      · exact hjt a b hi
      · exact hjf a b hi
      · exact hcall a hi
      · exact hret hi
    rw [he, State.setPc_pc, hnpc, fallThrough_toNat_of_fetch hf]

end Sys2Proof.Machine
end

section
/-! SUPPORT. What each commit writes, field by field, and that a step which does not commit touches no register,
stack, memory or stream; then the frames of the 22 instructions and of the step (10_state.md R22, R27, R33, R35,
R36; 20_memory.md R50, R51, R56, R62). -/

namespace Sys2Proof.Machine

open Claims

variable {s t u : State} {i : Instr} {npc : Pc}

/-! ### What a commit writes -/

/-- A commit leaves the registers, or writes the one that its `dst` operand names (R22). -/
theorem Commits.x_cases (h : Commits s i u npc) :
    u.x = s.x ∨ ∃ r v, (Role.dst, Operand.reg r) ∈ i.operands ∧ u.x = (s.writeReg r v).x := by
  cases h with
  | push _ _ | jmp _ | jt _ _ | jf _ _ | wmem _ _ _ | call _ _ _ | ret _ | out _ | noop => exact .inl rfl
  | _ => exact .inr ⟨_, _, List.mem_cons_self, rfl⟩

/-- A commit leaves the stack, or pushes one Word on it, or takes its top off (R27). -/
theorem Commits.stack_cases (h : Commits s i u npc) :
    u.stack = s.stack ∨
    (((∃ a, i = .push a) ∨ (∃ a, i = .call a)) ∧ Room s ∧ ∃ v, u.stack = v :: s.stack) ∨
    (((∃ a, i = .pop a) ∨ i = .ret) ∧ ∃ v, s.stack = v :: u.stack) := by
  cases h with
  | push _ hr => exact .inr (.inl ⟨.inl ⟨_, rfl⟩, hasRoom_iff.mp hr, _, rfl⟩)
  | call _ _ hr => exact .inr (.inl ⟨.inr ⟨_, rfl⟩, hasRoom_iff.mp hr, _, rfl⟩)
  | pop hs => exact .inr (.inr ⟨.inl ⟨_, rfl⟩, _, hs⟩)
  | ret hs => exact .inr (.inr ⟨.inr rfl, _, hs⟩)
  | _ => exact .inl rfl

/-- A commit leaves memory, or is a `wmem` that stores a Word in a cell below `MEMLEN` (R151). -/
theorem Commits.mem_cases (h : Commits s i u npc) :
    u.mem = s.mem ∨
    ∃ a b, ∃ addr v : Word, i = .wmem a b ∧ resolve s a = .ok addr ∧ addr.toNat < s.memLen.val ∧
      u.mem = s.mem.store addr.toNat (v.setWidth 16) := by
  cases h with
  | wmem ha _ hm => exact .inr ⟨_, _, _, _, rfl, ha, hm, rfl⟩
  | _ => exact .inl rfl

/-- A commit leaves the output, or is an `out` that sends its character (R36). -/
theorem Commits.output_cases (h : Commits s i u npc) :
    u.output = s.output ∨ ∃ a c, i = .out a ∧ resolve s a = .ok c ∧ u.output = s.output ++ [c] := by
  cases h with
  | out ha => exact .inr ⟨_, _, rfl, ha, rfl⟩
  | _ => exact .inl rfl

/-- A commit leaves the input, or is an `in` that receives its first character (R35). -/
theorem Commits.input_cases (h : Commits s i u npc) :
    u.input = s.input ∨ ∃ r c, i = .inp (.reg r) ∧ s.input = c :: u.input ∧ u.readReg r = c := by
  cases h with
  | inp hi => exact .inr ⟨_, _, rfl, hi, by simp⟩
  | _ => exact .inl rfl

/-- No commit writes the parameters of the run or the fault record (R33, R50). -/
theorem Commits.parameters_eq (h : Commits s i u npc) :
    u.memLen = s.memLen ∧ u.stackDepth = s.stackDepth ∧
    u.fkind = s.fkind ∧ u.faddr = s.faddr ∧ u.fop = s.fop ∧ u.fopv = s.fopv := by
  cases h <;> exact ⟨rfl, rfl, rfl, rfl, rfl, rfl⟩

/-! ### Nothing but a commit writes data -/

/-- The data of a run: registers, stack, memory and the two streams hold the same in both states. -/
structure SameData (s t : State) : Prop where
  x : t.x = s.x
  stack : t.stack = s.stack
  mem : t.mem = s.mem
  input : t.input = s.input
  output : t.output = s.output

/-- An instruction that faults, halts or waits leaves the data as it was (R99, R100, R178). -/
theorem exec_sameData_or_commits (h : exec i s = .next t) :
    SameData s t ∨ ∃ u npc, Commits s i u npc ∧ t = u.setPc npc := by
  cases exec_ends h with
  | fault k _ ht _ => exact .inl (ht ▸ ⟨rfl, rfl, rfl, rfl, rfl⟩)
  | halt _ ht => exact .inl (ht ▸ ⟨rfl, rfl, rfl, rfl, rfl⟩)
  | wait r _ _ ht => exact .inl (ht ▸ ⟨rfl, rfl, rfl, rfl, rfl⟩)
  | commit u npc hc _ ht => exact .inr ⟨u, npc, hc, ht⟩

/-! ### The frames of the instructions -/

/-- Settles O38: a register that no `dst` operand names is not the one a commit writes. -/
theorem onlyTheDestinationRegisterChanges : Obligations.OnlyTheDestinationRegisterChanges := by
  intro i s t q h hq
  rcases exec_sameData_or_commits h with hd | ⟨u, npc, hc, rfl⟩
  · rw [hd.x]
  · rcases hc.x_cases with hx | ⟨r, v, hr, hx⟩
    · rw [State.setPc_x, hx]
    · have hne : q ≠ r := fun he => hq (he ▸ hr)
      rw [State.setPc_x, hx]
      exact (State.writeReg_readReg s r q v).trans (if_neg hne)

/-- Settles O39: only a commit writes the stack, in one of three ways. -/
theorem onlyFourInstructionsReachTheStack : Obligations.OnlyFourInstructionsReachTheStack := by
  intro i s t h
  rcases exec_sameData_or_commits h with hd | ⟨u, npc, hc, rfl⟩
  · exact .inl hd.stack
  · exact hc.stack_cases

/-- Settles O40: the one store is at the address the `wmem` resolved, and every other cell reads as before. -/
theorem onlyWmemChangesMemory : Obligations.OnlyWmemChangesMemory := by
  intro i s t k hwf h hk
  rw [State.cell, State.cell]
  rcases exec_sameData_or_commits h with hd | ⟨u, npc, hc, rfl⟩
  · rw [hd.mem]
  · rw [State.setPc_mem]
    rcases hc.mem_cases with hm | ⟨a, b, addr, v, hi, ha, -, hm⟩
    · rw [hm]
    · rw [hm, Memory.cellAt_store _ _ _ _ hwf, if_neg (hk a b addr hi ha).symm]

/-- Settles O41: only a commit writes the streams, each in one of two ways. -/
theorem onlyInAndOutMoveCharacters : Obligations.OnlyInAndOutMoveCharacters := by
  intro i s t h
  rcases exec_sameData_or_commits h with hd | ⟨u, npc, hc, rfl⟩
  · exact ⟨.inl hd.output, .inl hd.input⟩
  · exact ⟨hc.output_cases, hc.input_cases⟩

/-! ### The frames of the step -/

/-- Settles O42: only the fault writes the record, and it leaves the core halted by a fault. -/
theorem runParametersAndRecordStay : Obligations.RunParametersAndRecordStay := by
  intro s t h
  cases step_ends h with
  | idle _ he => exact he ▸ ⟨rfl, rfl, fun _ => ⟨rfl, rfl, rfl, rfl⟩⟩
  | fault _ k v _ _ _ _ he => exact he ▸ ⟨rfl, rfl, fun ht => absurd rfl ht⟩
  | halt _ he => exact he ▸ ⟨rfl, rfl, fun _ => ⟨rfl, rfl, rfl, rfl⟩⟩
  | commit _ i _ u npc hc _ he =>
    obtain ⟨hlen, hdepth, hrecord⟩ := hc.parameters_eq
    exact he ▸ ⟨hlen, hdepth, fun _ => hrecord⟩

/-- A step leaves memory, or stores a Word in one cell below `MEMLEN` (R51, R57). -/
theorem step_mem_cases (h : step s = .next t) :
    t.mem = s.mem ∨
    ∃ addr v : Word, addr.toNat < s.memLen.val ∧ t.mem = s.mem.store addr.toNat (v.setWidth 16) := by
  cases step_ends h with
  | idle _ he => exact .inl (he ▸ rfl)
  | fault _ k v _ _ _ _ he => exact .inl (he ▸ rfl)
  | halt _ he => exact .inl (he ▸ rfl)
  | commit _ i _ u npc hc _ he =>
    rcases hc.mem_cases with hm | ⟨_, _, addr, v, -, -, hlt, hm⟩
    · exact .inl (he ▸ hm)
    · exact .inr ⟨addr, v, hlt, he ▸ hm⟩

/-- Settles O48: the one cell a step may store to then holds a Word, so a cell above 32767 is none of its
making. -/
theorem noStepCreatesALargeCell : Obligations.NoStepCreatesALargeCell := by
  intro s t k hwf h hlarge
  rcases step_mem_cases h with hm | ⟨addr, v, -, hm⟩
  · rw [State.cell, State.cell, hm]
  · have hcell : t.cell k = if k = addr.toNat then v.setWidth 16 else s.cell k := by
      rw [State.cell, hm, Memory.cellAt_store _ _ _ _ hwf, State.cell]
    split_ifs at hcell with hk
    · have hv := v.isLt
      rw [hcell, BitVec.toNat_setWidth] at hlarge
      omega
    · exact hcell

/-- Settles O47: the cells that exist are those of before, and each reads as before or as the Word stored. -/
theorem storeIsSeenByTheNextFetch : Obligations.StoreIsSeenByTheNextFetch := by
  intro s t a b addr v hwf ha hb hlt h k n
  rw [exec_wmem_of_lt ha hb hlt] at h
  cases h
  apply List.ext_getElem
  · simp [cellsFrom_length]
  · intro j _ _
    rw [List.getElem_mapIdx, cellsFrom_getElem, cellsFrom_getElem, State.cell, State.setPc_mem,
      State.writeCell_mem, Memory.cellAt_store _ _ _ _ hwf, State.cell]

/-! ### Fetching from the same memory -/

/-- What a fetch reads is decided by memory and `MEMLEN` alone. -/
theorem cellsFrom_congr (hm : t.mem = s.mem) (hl : t.memLen = s.memLen) (k n : Nat) :
    t.cellsFrom k n = s.cellsFrom k n := by
  induction n generalizing k with
  | zero => rfl
  | succ n ih => rw [cellsFrom_succ, cellsFrom_succ, ih, hl, State.cell, State.cell, hm]

/-- Settles O55: the opcode cell was fetched, so the record has `FOPV` 1 and the address of an instruction that
still stands in memory. -/
theorem faultTextIsTheFetchedInstruction : Obligations.FaultTextIsTheFetchedInstruction := by
  intro s t i hs hf h ht
  have hbound := fetch_ok_bound hf
  obtain ⟨k, v, -, hv, he⟩ := faultsArePrecise s t hs h ht
  have hfopv : t.fopv = true := by
    rw [he, ← Bool.not_eq_false, hv]
    omega
  have hfaddr : t.faddr = s.pc := by rw [he]
  have hcells : t.cellsFrom s.pc.toNat 4 = s.cellsFrom s.pc.toNat 4 :=
    cellsFrom_congr (by rw [he]) (by rw [he]) _ _
  obtain ⟨rest, hd⟩ := fetch_ok.mp hf
  rw [faultText, if_pos ⟨ht, hfopv⟩, hfaddr, hcells, hd]

end Sys2Proof.Machine
end

section
/-! SUPPORT. The invariant through faults, halts and commits; then the statement that every step keeps it
(10_state.md R25, R31 to R33; 20_memory.md R50; 60_exceptions.md R176, R185). -/

namespace Sys2Proof.Machine

open Claims

variable {s t u : State} {i : Instr} {npc : Pc}

/-- Taking a fault writes a record that the invariant asks for: the address is the pc, and the opcode cell is
there unless the opcode fetch itself faulted (R32, R176). -/
theorem State.Inv.takeFault (h : s.Inv) {k : FaultKind} {v : Bool} (hk : k ≠ .noFault)
    (hv : v = false ↔ s.memLen.val ≤ s.pc.toNat) (ha : v = false → k = .addressOutOfBounds)
    (ho : k = .stackOverflow → s.hasRoom = false) : (s.takeFault k v).Inv where
  memCanonical := h.memCanonical
  memInside := h.memInside
  pcBound := h.pcBound
  stackBound := h.stackBound
  noRecord := fun hs => absurd rfl hs
  record := by
    refine fun _ => ⟨hk, rfl, fun hv1 => ?_, fun hv0 => ?_⟩
    · obtain rfl : v = true := hv1
      exact ⟨by simpa using hv, rfl⟩
    · obtain rfl : v = false := hv0
      exact ⟨hv.mp rfl, rfl, ha rfl⟩
  overflowOnlyFinite := by
    intro hko hd
    have hd' : s.stackDepth = none := hd
    simpa [State.hasRoom, hd'] using ho hko

/-- Ending the run normally leaves a record that was already 0 (R33, R178). -/
theorem State.Inv.haltNormal (h : s.Inv) (hs : s.status = .running) : s.haltNormal.Inv where
  memCanonical := h.memCanonical
  memInside := h.memInside
  pcBound := h.pcBound
  stackBound := h.stackBound
  noRecord := fun _ => h.noRecord (by simp [hs])
  record := by simp
  overflowOnlyFinite := h.overflowOnlyFinite

/-- A commit stores below `MEMLEN` or nowhere, in canonical form. -/
theorem Commits.mem_inv (h : Commits s i u npc) (hwf : s.mem.wf = true)
    (hin : s.mem.below s.memLen.val = true) : u.mem.wf = true ∧ u.mem.below s.memLen.val = true := by
  rcases h.mem_cases with hm | ⟨_, _, addr, v, -, -, hlt, hm⟩
  · rw [hm]
    exact ⟨hwf, hin⟩
  · rw [hm]
    exact ⟨Memory.store_wf _ _ _ hwf, Memory.store_below _ _ _ _ hlt hin⟩

/-- The next pc of a fetched instruction is an address after existing cells, or a Word (R25, R135). -/
theorem Commits.npc_le (h : Commits s i u npc) (hf : fetch s = .ok i) : npc.toNat ≤ 32768 := by
  rcases h.npc_cases with rfl | ⟨⟨w, rfl⟩, -⟩
  · have hbound := fetch_ok_bound hf
    have hlen : s.memLen.val < 32769 := s.memLen.isLt
    rw [fallThrough_toNat_of_fetch hf]
    omega
  · have hw := w.isLt
    rw [target_toNat]
    omega

/-- A finite stack grows only where it has room (R185). -/
theorem Commits.stack_le (h : Commits s i u npc) {d : Nat} (hd : s.stackDepth = some d)
    (hle : s.stack.length ≤ d) : u.stack.length ≤ d := by
  rcases h.stack_cases with hst | ⟨-, hroom, v, hst⟩ | ⟨-, v, hst⟩
  · rw [hst]
    exact hle
  · rw [hst]
    exact hroom d hd
  · rw [hst, List.length_cons] at hle
    omega

/-- A commit of the fetched instruction keeps the invariant. -/
theorem State.Inv.commit (h : s.Inv) (hs : s.status = .running) (hf : fetch s = .ok i)
    (hc : Commits s i u npc) : (u.setPc npc).Inv := by
  obtain ⟨hlen, hdepth, hkind, hrest⟩ := hc.parameters_eq
  obtain ⟨hwf, hin⟩ := hc.mem_inv h.memCanonical h.memInside
  have hrun : u.status = .running := hc.status_eq.trans hs
  have hrecord := h.noRecord (by simp [hs])
  exact {
    memCanonical := hwf
    memInside := by simpa [hlen] using hin
    pcBound := hc.npc_le hf
    stackBound := by
      intro d hd
      rw [State.setPc_stackDepth, hdepth] at hd
      exact hc.stack_le hd (h.stackBound d hd)
    noRecord := fun _ => by simpa [hkind, hrest] using hrecord
    record := by simp [hrun]
    overflowOnlyFinite := by simp [hkind, hrecord.1] }

/-- Settles O43: whichever way the step ends, the invariant is kept. -/
theorem stepKeepsTheInvariant : Obligations.StepKeepsTheInvariant := by
  intro s t hinv h
  cases step_ends h with
  | idle _ he => exact he ▸ hinv
  | fault _ k v hk hv ha ho he => exact he ▸ hinv.takeFault hk hv ha ho
  | halt hs he => exact he ▸ hinv.haltNormal hs
  | commit hs i hf u npc hc _ he => exact he ▸ hinv.commit hs hf hc

end Sys2Proof.Machine
end

section
/-! SUPPORT. What the host's operations answer: the words of a byte image, a load, a reset, a boot, and the
placing of an instruction; then the statements on them (20_memory.md R53; 70_reset_and_hazards.md R200 to R203;
10_state.md R30, R31, R38, R39). -/

namespace Sys2Proof.Machine

variable {s t : State}

/-! ### Loading -/

theorem wordsOfBytes_of_odd {bytes : List (BitVec 8)} (h : bytes.length % 2 = 1) : wordsOfBytes bytes = none := by
  induction bytes using wordsOfBytes.induct with
  | case1 => simp at h
  | case2 b => rfl
  | case3 lo hi t ih =>
    rw [List.length_cons, List.length_cons] at h
    rw [wordsOfBytes, ih (by omega), Option.map_none]

/-- An image of even length is half as many words, each from two bytes, the low one first. -/
theorem exists_wordsOfBytes {bytes : List (BitVec 8)} (h : bytes.length % 2 = 0) :
    ∃ ws, wordsOfBytes bytes = some ws ∧ ws.length = bytes.length / 2 ∧
      ∀ k, k < bytes.length / 2 →
        (ws.getD k 0).toNat = (bytes.getD (2 * k) 0).toNat + 256 * (bytes.getD (2 * k + 1) 0).toNat := by
  induction bytes using wordsOfBytes.induct with
  | case1 => exact ⟨[], rfl, rfl, by simp⟩
  | case2 b => simp at h
  | case3 lo hi t ih =>
    simp only [List.length_cons] at h ⊢
    obtain ⟨ws, hws, hlen, hget⟩ := ih (by omega)
    refine ⟨BitVec.ofNat 16 (lo.toNat + 256 * hi.toNat) :: ws, by rw [wordsOfBytes, hws]; rfl, ?_, ?_⟩
    · rw [List.length_cons]
      omega
    · intro k hk
      cases k with
      | zero =>
        have hlo := lo.isLt
        have hhi := hi.isLt
        simp only [List.getD_cons_zero, List.getD_cons_succ, BitVec.toNat_ofNat, Nat.mul_zero, Nat.zero_add]
        omega
      | succ k =>
        rw [show 2 * (k + 1) = 2 * k + 1 + 1 by omega]
        simp only [List.getD_cons_succ]
        exact hget k (by omega)

/-- A load is refused above 32768 words, and otherwise writes memory and `MEMLEN` (R53, decision D3). -/
theorem loadWords_some {img : List Cell} :
    loadWords img s = some t ↔ img.length ≤ 32768 ∧
      t = { s with mem := Memory.storeList [] 0 img, memLen := memLenOf img.length } := by
  rw [loadWords, show Config.maxMemLen = 32768 from rfl]
  split_ifs with h <;> simp [h, eq_comm]

theorem loadWords_of_lt {img : List Cell} (h : 32768 < img.length) : loadWords img s = none := by
  rw [Option.eq_none_iff_forall_ne_some]
  intro t ht
  have hle := (loadWords_some.mp ht).1
  omega

/-- The words of a loaded image stand in the cells from 0 on. -/
theorem exists_loadWords (s : State) {img : List Cell} (h : img.length ≤ 32768) :
    ∃ t, loadWords img s = some t ∧ t = { s with mem := t.mem, memLen := t.memLen } ∧
      t.mem.wf = true ∧ t.memLen.val = img.length ∧ ∀ k, k < img.length → t.cell k = img.getD k 0 := by
  refine ⟨_, loadWords_some.mpr ⟨h, rfl⟩, rfl, Memory.storeList_wf img [] 0 rfl, memLenOf_val h, ?_⟩
  intro k hk
  rw [State.cell, Memory.cellAt_storeList img [] 0 k rfl, if_pos (by omega), Nat.sub_zero]

/-- Settles O52: a byte image of even length is its words, and they load as a sequence of words does. -/
theorem imageLoadsLittleEndian : Obligations.ImageLoadsLittleEndian := by
  refine ⟨fun bytes s => ⟨fun hodd => ?_, fun hlong => ?_, fun heven hle => ?_⟩,
    fun img s => ⟨loadWords_of_lt, exists_loadWords s⟩⟩
  · rw [loadImage, wordsOfBytes_of_odd hodd]
  · rcases Nat.mod_two_eq_zero_or_one bytes.length with heven | hodd
    · obtain ⟨ws, hws, hlen, -⟩ := exists_wordsOfBytes heven
      rw [loadImage, hws]
      exact loadWords_of_lt (by omega)
    · rw [loadImage, wordsOfBytes_of_odd hodd]
  · obtain ⟨ws, hws, hlen, hget⟩ := exists_wordsOfBytes heven
    obtain ⟨t, ht, hframe, hwf, hmemLen, hcell⟩ := exists_loadWords s (img := ws) (by omega)
    refine ⟨t, by rw [loadImage, hws]; exact ht, hframe, hwf, by omega, fun k hk => ?_⟩
    rw [hcell k (by omega), hget k hk]

/-! ### Reset and boot -/

/-- Reset leads to the invariant from any canonical memory inside `MEMLEN`: all else it asks for is reset. -/
theorem assertReset_inv (hwf : s.mem.wf = true) (hin : s.mem.below s.memLen.val = true) :
    (assertReset s).Inv where
  memCanonical := hwf
  memInside := hin
  pcBound := by simp
  stackBound := by simp
  noRecord := by simp
  record := by simp
  overflowOnlyFinite := by simp

/-- Settles O44: the reset state is its own reset. -/
theorem resetMeetsTheInvariant : Obligations.ResetMeetsTheInvariant :=
  assertReset_inv (s := State.reset) rfl rfl

/-- A loaded image is canonical and fills the cells below `MEMLEN`. -/
theorem mem_of_loadWords {img : List Cell} (h : loadWords img s = some t) :
    t.mem.wf = true ∧ t.mem.below t.memLen.val = true := by
  obtain ⟨hle, rfl⟩ := loadWords_some.mp h
  refine ⟨Memory.storeList_wf img [] 0 rfl, Memory.storeList_below img [] 0 _ ?_ rfl⟩
  simp [memLenOf_val hle]

/-- Settles O45: a boot is the reset of a state with an image loaded. -/
theorem bootMeetsTheInvariant : Obligations.BootMeetsTheInvariant := by
  refine ⟨fun bytes chars t ht => ?_, fun s hinv => assertReset_inv hinv.memCanonical hinv.memInside⟩
  cases hws : wordsOfBytes bytes with
  | none => simp [boot, loadImage, hws] at ht
  | some ws =>
    cases hload : loadWords ws State.reset with
    | none => simp [boot, loadImage, hws, hload] at ht
    | some u =>
      obtain ⟨hwf, hin⟩ := mem_of_loadWords hload
      obtain rfl : assertReset (u.setInput chars) = t := by simpa [boot, loadImage, hws, hload] using ht
      exact assertReset_inv hwf hin

/-- Settles O53: field by field, the reset value or the old one. -/
theorem resetClearsAllButMemory : Obligations.ResetClearsAllButMemory := by
  intro s
  refine ⟨fun r => ?_, rfl, rfl, rfl, rfl, rfl, rfl, rfl, rfl, rfl, rfl, rfl⟩
  rw [assertReset_x, Fin.getElem_fin, Vector.getElem_replicate]

/-! ### The status port -/

/-- Settles O54: the code tables evaluated, and the port read field by field. -/
theorem statusPortReadsTheCodes : Obligations.StatusPortReadsTheCodes := by
  refine ⟨⟨rfl, rfl, rfl⟩, ⟨rfl, rfl, rfl, rfl, rfl, rfl, rfl, rfl⟩, fun s => ⟨rfl, rfl, rfl, rfl, ?_⟩⟩
  rw [readStatus]
  cases s.fopv <;> simp

/-! ### Placing an instruction -/

/-- Four cells placed for the next fetch exist below `MEMLEN`, which stays at most 32768. -/
theorem loadAtFetch_bound (s : State) (cells : List Cell) :
    (loadAtFetch s cells).pc.toNat + 4 ≤ (loadAtFetch s cells).memLen.val := by
  have hp : (loadAtFetch s cells).pc.toNat + 4 ≤ 32768 := by
    simp only [loadAtFetch, show Config.maxMemLen = 32768 from rfl]
    split_ifs with h
    · exact h
    · decide
  have hlen : s.memLen.val < 32769 := s.memLen.isLt
  have hval : (loadAtFetch s cells).memLen.val =
      max s.memLen.val ((loadAtFetch s cells).pc.toNat + 4) :=
    memLenOf_val (n := max s.memLen.val ((loadAtFetch s cells).pc.toNat + 4)) (by omega)
  omega

/-- The next fetch reads the four cells that were placed. -/
theorem cellsFrom_loadAtFetch (hwf : s.mem.wf = true) {cells : List Cell} (hl : cells.length = 4) :
    (loadAtFetch s cells).cellsFrom (loadAtFetch s cells).pc.toNat 4 = cells := by
  have hbound := loadAtFetch_bound s cells
  have hmem : (loadAtFetch s cells).mem = s.mem.storeList (loadAtFetch s cells).pc.toNat cells := rfl
  apply List.ext_getElem
  · rw [cellsFrom_length]
    omega
  · intro j _ hj
    rw [cellsFrom_getElem, State.cell, hmem, Memory.cellAt_storeList _ _ _ _ hwf, if_pos (by omega),
      Nat.add_sub_cancel_left, List.getD_eq_getElem _ _ hj]

theorem decodeTableWord_some {nbits w : Nat} {i : Instr} :
    decodeTableWord nbits w = some i ↔ ∃ rest, decode (tableCells nbits w) = .ok (i, rest) := by
  unfold decodeTableWord
  cases decode (tableCells nbits w) <;> simp [Prod.ext_iff]

/-- Settles O56: the core that was set running fetches the four cells of the table word, from which the decoder
reads the instruction. -/
theorem placedInstructionRunsNext : Obligations.PlacedInstructionRunsNext := by
  intro s nbits w i hwf hd
  have hcells := cellsFrom_loadAtFetch hwf (cells := tableCells nbits w) (by simp [tableCells])
  have hf : fetch (s.withFetchWord nbits w) = .ok i := by
    rw [fetch_ok, State.withFetchWord, hcells]
    exact decodeTableWord_some.mp hd
  exact step_of_fetch_ok rfl hf

end Sys2Proof.Machine
end

section
/-! SUPPORT. A state with more characters behind the waiting ones and an older output steps as the state without
them: every operation of a step commutes with adding them; then the statement on what a step reads
(40_step_and_operands.md R103). -/

namespace Sys2Proof.Machine

/-- The state with `more` characters behind those waiting and `old` sent before the output so far. -/
def State.withStreams (s : State) (more old : List Word) : State :=
  { s with input := s.input ++ more, output := old ++ s.output }

/-- The effect with the streams of its state extended. -/
def Effect.withStreams (e : Effect) (more old : List Word) : Effect :=
  match e with
  | .commit t npc => .commit (t.withStreams more old) npc
  | .haltNormal => .haltNormal
  | .raise k => .raise k
  | .wait => .wait

/-- The outcome with the streams of its state extended. -/
def StepOutcome.withStreams (o : StepOutcome) (more old : List Word) : StepOutcome :=
  match o with
  | .next t => .next (t.withStreams more old)
  | .fault r => .fault r
  | .refused r => .refused r

variable {s : State} {more old : List Word}

/-! ### The end of a step and the formats -/

theorem finish_withStreams (s : State) (e : Effect) :
    finish (s.withStreams more old) (e.withStreams more old) =
      StepOutcome.withStreams (finish s e) more old := by
  cases e with
  | commit t npc =>
    by_cases hn : npc = s.pc
    · subst hn
      rw [finish_stuck]
      exact finish_stuck
    · rw [finish_commit hn]
      exact finish_commit (s := s.withStreams more old) hn
  | haltNormal => rfl
  | raise k => rfl
  | wait => rfl

theorem resolve_withStreams (s : State) (a : Operand) : resolve (s.withStreams more old) a = resolve s a := by
  cases a <;> rfl

section
variable {a b c : Operand}

/-- A format whose phase 4 commutes with extending the streams does so itself, since operands are checked and
resolved without the streams. -/
theorem runS_withStreams {f g : Word → Effect} (h : ∀ u, g u = (f u).withStreams more old) :
    runS (s.withStreams more old) a g = StepOutcome.withStreams (runS s a f) more old := by
  rw [runS, runS, resolve_withStreams]
  cases resolve s a with
  | error k => rfl
  | ok u => simp only [h, finish_withStreams]

theorem runD_withStreams {f g : RegIx → Effect} (h : ∀ r, g r = (f r).withStreams more old) :
    runD (s.withStreams more old) a g = StepOutcome.withStreams (runD s a f) more old := by
  rw [runD, runD]
  cases regix a with
  | error k => rfl
  | ok r => simp only [h, finish_withStreams]

theorem runDS_withStreams {f g : RegIx → Word → Effect} (h : ∀ r u, g r u = (f r u).withStreams more old) :
    runDS (s.withStreams more old) a b g = StepOutcome.withStreams (runDS s a b f) more old := by
  rw [runDS, runDS]
  cases regix a with
  | error k => rfl
  | ok r => exact runS_withStreams (h r)

theorem runSS_withStreams {f g : Word → Word → Effect} (h : ∀ u w, g u w = (f u w).withStreams more old) :
    runSS (s.withStreams more old) a b g = StepOutcome.withStreams (runSS s a b f) more old := by
  rw [runSS, runSS, resolve_withStreams]
  cases resolve s a with
  | error k => rfl
  | ok u => exact runS_withStreams (h u)

theorem runDSS_withStreams {f g : RegIx → Word → Word → Effect}
    (h : ∀ r u w, g r u w = (f r u w).withStreams more old) :
    runDSS (s.withStreams more old) a b c g = StepOutcome.withStreams (runDSS s a b c f) more old := by
  rw [runDSS, runDSS]
  cases regix a with
  | error k => rfl
  | ok r => exact runSS_withStreams (h r)

end

/-! ### The operations of phase 4 -/

theorem pushWord_withStreams (s : State) (v : Word) :
    pushWord (s.withStreams more old) v = (pushWord s v).map (·.withStreams more old) := by
  unfold pushWord
  rw [show (s.withStreams more old).hasRoom = s.hasRoom from rfl]
  cases s.hasRoom <;> rfl

theorem popWord_withStreams (s : State) :
    popWord (s.withStreams more old) = (popWord s).map (Prod.map id (·.withStreams more old)) := by
  unfold popWord
  rw [show (s.withStreams more old).stack = s.stack from rfl]
  cases s.stack <;> rfl

theorem memRead_withStreams (s : State) (k : Nat) : memRead (s.withStreams more old) k = memRead s k := rfl

theorem memWrite_withStreams (s : State) (k : Nat) (v : Word) :
    memWrite (s.withStreams more old) k v = (memWrite s k v).map (·.withStreams more old) := by
  unfold memWrite
  rw [show (s.withStreams more old).memLen = s.memLen from rfl]
  split_ifs <;> rfl

/-- Where a character waits, the one taken is not among those added behind. -/
theorem takeChar_withStreams (h : s.input ≠ []) :
    takeChar (s.withStreams more old) = (takeChar s).map (Prod.map id (·.withStreams more old)) := by
  obtain ⟨c, cs, hin⟩ := List.exists_cons_of_ne_nil h
  have hin' : (s.withStreams more old).input = c :: (cs ++ more) := by rw [State.withStreams, hin]; rfl
  rw [takeChar_some.mpr ⟨cs, hin, rfl⟩, takeChar_some.mpr ⟨_, hin', rfl⟩]
  rfl

theorem sendChar_withStreams (s : State) (c : Word) :
    (s.withStreams more old).sendChar c = (s.sendChar c).withStreams more old := by
  simp [State.sendChar, State.withStreams]

/-! ### Instructions and the step -/

/-- With a character waiting, each instruction's phase 4 commutes with extending the streams. -/
theorem exec_withStreams (i : Instr) (h : s.input ≠ []) :
    exec i (s.withStreams more old) = StepOutcome.withStreams (exec i s) more old := by
  cases i with
  | halt => exact finish_withStreams s .haltNormal
  | noop => exact finish_withStreams s (.commit s (s.fallThrough 1))
  | set a b | not a b => exact runDS_withStreams fun _ _ => rfl
  | eq a b c | gt a b c | add a b c | mult a b c | and a b c | or a b c =>
    exact runDSS_withStreams fun _ _ _ => rfl
  | jmp a => exact runS_withStreams fun _ => rfl
  | jt a b | jf a b => exact runSS_withStreams fun _ _ => rfl
  | mod a b c => exact runDSS_withStreams fun _ _ w => by by_cases hw : w.toNat = 0 <;> simp only [hw] <;> rfl
  | push a =>
    refine runS_withStreams fun v => ?_
    rw [pushWord_withStreams]
    cases pushWord s v <;> rfl
  | pop a =>
    refine runD_withStreams fun r => ?_
    rw [popWord_withStreams]
    cases popWord s <;> rfl
  | call a =>
    refine runS_withStreams fun t => ?_
    rw [show returnAddress (s.withStreams more old) = returnAddress s from rfl]
    cases returnAddress s with
    | error k => rfl
    | ok ra =>
      simp only [pushWord_withStreams]
      cases pushWord s ra <;> rfl
  | ret =>
    rw [exec_ret, exec_ret, popWord_withStreams, ← finish_withStreams]
    cases popWord s <;> rfl
  | rmem a b =>
    refine runDS_withStreams fun r addr => ?_
    rw [memRead_withStreams]
    cases memRead s addr.toNat with
    | error k => rfl
    | ok c =>
      dsimp only
      cases wordOfCell c <;> rfl
  | wmem a b =>
    refine runSS_withStreams fun addr v => ?_
    rw [memWrite_withStreams]
    cases memWrite s addr.toNat v <;> rfl
  | out a => exact runS_withStreams fun c => by rw [sendChar_withStreams]; rfl
  | inp a =>
    refine runD_withStreams fun r => ?_
    rw [takeChar_withStreams h]
    cases takeChar s <;> rfl

theorem step_withStreams (h : s.input ≠ []) :
    step (s.withStreams more old) = StepOutcome.withStreams (step s) more old := by
  by_cases hs : s.status = .running
  · have hs' : (s.withStreams more old).status = .running := hs
    have hfetch : fetch (s.withStreams more old) = fetch s := by
      rw [fetch, fetch, cellsFrom_congr (s := s) rfl rfl]
      rfl
    cases hf : fetch s with
    | ok i => rw [step_of_fetch_ok hs hf, step_of_fetch_ok hs' (hfetch.trans hf), exec_withStreams i h]
    | error e =>
      rw [step_of_fetch_error hs hf, step_of_fetch_error hs' (hfetch.trans hf)]
      cases e <;> rfl
  · rw [step_halted hs, step_halted (s := s.withStreams more old) hs]
    rfl

/-- Settles O49: extending the streams before the step and after it gives the same. -/
theorem stepReadsOnlyTheNextCharacter : Obligations.StepReadsOnlyTheNextCharacter := by
  intro s t more old hin h
  have hstep := step_withStreams (more := more) (old := old) hin
  rw [h] at hstep
  exact hstep

end Sys2Proof.Machine
end

section
/-! SUPPORT. The fault matrix beside the model: what the matrix names for each opcode in phases 4 and 5, that each
format takes the operand faults it names, and that each instruction then takes the fault it names; then the
statement on the matrix (60_exceptions.md R170, R181, R182). -/

namespace Sys2Proof.Machine

variable {s : State} {k : Nat} {g : Option FaultKind}

/-! ### Phases 4 and 5 of the matrix -/

/-- The fault that the matrix names for phases 4 and 5 of the opcode `op` at the pc, with the operand cells that
follow it. -/
def matrixEffect (s : State) (op : Nat) : Option FaultKind :=
  let p := s.pc.toNat
  let a := (s.cell (p + 1)).toNat
  let b := (s.cell (p + 2)).toNat
  let c := (s.cell (p + 3)).toNat
  (matrixExecute s op a b c).or (matrixStuck s op a b)

/-- Only ten instructions have faults of their own. -/
theorem matrixEffect_eq_none {op : Nat} (h : op ∉ [2, 3, 6, 7, 8, 11, 15, 16, 17, 18]) :
    matrixEffect s op = none := by
  simp only [List.mem_cons, List.not_mem_nil, or_false, not_or] at h
  simp [matrixEffect, matrixExecute, matrixStuck, h]

theorem matrixEffect_push : matrixEffect s 2 = if stackFull s then some .stackOverflow else none := by
  simp [matrixEffect, matrixExecute, matrixStuck]

theorem matrixEffect_pop : matrixEffect s 3 = if s.stack = [] then some .stackUnderflow else none := by
  simp [matrixEffect, matrixExecute, matrixStuck]

theorem matrixEffect_jmp : matrixEffect s 6 =
    if matrixValue s (s.cell (s.pc.toNat + 1)).toNat = s.pc.toNat then some .stuckPC else none := by
  simp [matrixEffect, matrixExecute, matrixStuck]

theorem matrixEffect_jt : matrixEffect s 7 =
    if matrixValue s (s.cell (s.pc.toNat + 1)).toNat ≠ 0 ∧
      matrixValue s (s.cell (s.pc.toNat + 2)).toNat = s.pc.toNat then some .stuckPC else none := by
  simp [matrixEffect, matrixExecute, matrixStuck]

theorem matrixEffect_jf : matrixEffect s 8 =
    if matrixValue s (s.cell (s.pc.toNat + 1)).toNat = 0 ∧
      matrixValue s (s.cell (s.pc.toNat + 2)).toNat = s.pc.toNat then some .stuckPC else none := by
  simp [matrixEffect, matrixExecute, matrixStuck]

theorem matrixEffect_mod : matrixEffect s 11 =
    if matrixValue s (s.cell (s.pc.toNat + 3)).toNat = 0 then some .outOfRangeValue else none := by
  simp [matrixEffect, matrixExecute, matrixStuck]

theorem matrixEffect_rmem : matrixEffect s 15 =
    let addr := matrixValue s (s.cell (s.pc.toNat + 2)).toNat
    if s.memLen.val ≤ addr then some .addressOutOfBounds
    else if (s.cell addr).toNat > 32767 then some .outOfRangeValue else none := by
  simp [matrixEffect, matrixExecute, matrixStuck]

theorem matrixEffect_wmem : matrixEffect s 16 =
    if s.memLen.val ≤ matrixValue s (s.cell (s.pc.toNat + 1)).toNat then some .addressOutOfBounds else none := by
  simp [matrixEffect, matrixExecute, matrixStuck]

theorem matrixEffect_call : matrixEffect s 17 =
    if s.pc.toNat + 2 > 32767 then some .outOfRangeValue
    else if stackFull s then some .stackOverflow
    else if matrixValue s (s.cell (s.pc.toNat + 1)).toNat = s.pc.toNat then some .stuckPC else none := by
  by_cases hp : s.pc.toNat + 2 > 32767 <;> by_cases hfull : stackFull s = true <;>
    simp [matrixEffect, matrixExecute, matrixStuck, hp, hfull]

theorem matrixEffect_ret : matrixEffect s 18 =
    if s.stack.head?.map BitVec.toNat = some s.pc.toNat then some .stuckPC else none := by
  simp [matrixEffect, matrixExecute, matrixStuck]

theorem stackFull_eq_not_hasRoom (s : State) : stackFull s = !s.hasRoom := by
  unfold stackFull State.hasRoom
  cases s.stackDepth with
  | none => rfl
  | some d => rw [← decide_not, decide_eq_decide, Nat.not_lt]

/-! ### Outcomes against the matrix -/

/-- The outcome is the fault the matrix names, or no fault where it names none. -/
def AnswersFault (s : State) (o : StepOutcome) : Option FaultKind → Prop
  | some k => o = raiseFault s k
  | none => ∃ t, o = .next t ∧ t.status ≠ .haltedFault

theorem answersFault_fallThrough {u : State} (hs : s.status = .running) (n : Nat) (h0 : 0 < n) (h : n ≤ 4)
    (hu : u.status = s.status := by rfl) : AnswersFault s (finish s (.commit u (s.fallThrough n))) none :=
  ⟨_, finish_fallThrough n h0 h, by simp [hu, hs]⟩

/-- A transfer faults exactly when it is to the instruction's own address (R96). -/
theorem answersFault_transfer {u : State} (hs : s.status = .running) (t : Word)
    (hu : u.status = s.status := by rfl) :
    AnswersFault s (finish s (.commit u (target t))) (if t.toNat = s.pc.toNat then some .stuckPC else none) := by
  split_ifs with ht
  · rw [(target_eq_pc t s.pc).mpr ht]
    exact finish_stuck
  · exact ⟨_, finish_commit (mt (target_eq_pc t s.pc).mp ht), by simp [hu, hs]⟩

/-! ### Operand cells against the matrix -/

theorem matrixOperands_dst_illegal {rs : List Role} (h : (s.cell k).toNat < 32768 ∨ 32775 < (s.cell k).toNat) :
    matrixOperands s k (.dst :: rs) = some .invalidRegister := if_pos h

theorem matrixOperands_dst_legal {rs : List Role} (h : ¬ ((s.cell k).toNat < 32768 ∨ 32775 < (s.cell k).toNat)) :
    matrixOperands s k (.dst :: rs) = matrixOperands s (k + 1) rs := if_neg h

theorem matrixOperands_src_illegal {rs : List Role} (h : 32775 < (s.cell k).toNat) :
    matrixOperands s k (.src :: rs) = some .outOfRangeValue := if_pos h

theorem matrixOperands_src_legal {rs : List Role} (h : ¬ 32775 < (s.cell k).toNat) :
    matrixOperands s k (.src :: rs) = matrixOperands s (k + 1) rs := if_neg h

/-- A cell of the register range names the register that many places up (R73). -/
theorem ofCell_of_register {o : Cell} (h : ¬ (o.toNat < 32768 ∨ 32775 < o.toNat)) :
    Operand.ofCell o = .reg (regIxOf (o.toNat - 32768)) := by
  rw [Operand.ofCell_eq_reg_iff, regIxOf_val (by omega)]
  omega

/-- A legal source cell resolves to the value the matrix reads from it (R97). -/
theorem exists_resolve_matrixValue (s : State) {o : Cell} (h : ¬ 32775 < o.toNat) :
    ∃ u, resolve s (.ofCell o) = .ok u ∧ u.toNat = matrixValue s o.toNat := by
  by_cases hlit : o.toNat ≤ 32767
  · refine ⟨BitVec.ofNat 15 o.toNat, by rw [Operand.ofCell_of_le hlit]; rfl, ?_⟩
    rw [matrixValue, if_pos hlit, BitVec.toNat_ofNat, Nat.mod_eq_of_lt (by omega)]
  · refine ⟨s.readReg (regIxOf (o.toNat - 32768)), by rw [ofCell_of_register (by omega)]; rfl, ?_⟩
    rw [matrixValue, if_neg hlit]

/-- A format takes the operand fault the matrix names, and else ends as its phase 4 does on the values the matrix
reads. -/
theorem answersFault_runS {f : Word → Effect}
    (h : ∀ u : Word, u.toNat = matrixValue s (s.cell k).toNat → AnswersFault s (finish s (f u)) g) :
    AnswersFault s (runS s (.ofCell (s.cell k)) f) ((matrixOperands s k [.src]).or g) := by
  by_cases hc : 32775 < (s.cell k).toNat
  · rw [matrixOperands_src_illegal hc]
    exact runS_of_not_legal (Operand.ofCell_legal_src_eq_false hc)
  · obtain ⟨u, hu, hval⟩ := exists_resolve_matrixValue s hc
    rw [matrixOperands_src_legal hc, runS_ok hu]
    exact h u hval

theorem answersFault_runD {f : RegIx → Effect} (h : ∀ r, AnswersFault s (finish s (f r)) g) :
    AnswersFault s (runD s (.ofCell (s.cell k)) f) ((matrixOperands s k [.dst]).or g) := by
  by_cases hc : (s.cell k).toNat < 32768 ∨ 32775 < (s.cell k).toNat
  · rw [matrixOperands_dst_illegal hc, runD, regix_error.mpr ⟨Operand.ofCell_legal_dst_eq_false hc, rfl⟩]
    exact rfl
  · rw [matrixOperands_dst_legal hc, ofCell_of_register hc]
    exact h _

theorem answersFault_runDS {f : RegIx → Word → Effect}
    (h : ∀ r (u : Word), u.toNat = matrixValue s (s.cell (k + 1)).toNat → AnswersFault s (finish s (f r u)) g) :
    AnswersFault s (runDS s (.ofCell (s.cell k)) (.ofCell (s.cell (k + 1))) f)
      ((matrixOperands s k [.dst, .src]).or g) := by
  by_cases hc : (s.cell k).toNat < 32768 ∨ 32775 < (s.cell k).toNat
  · rw [matrixOperands_dst_illegal hc]
    exact runDS_of_not_legal_dst (Operand.ofCell_legal_dst_eq_false hc)
  · rw [matrixOperands_dst_legal hc, ofCell_of_register hc]
    exact answersFault_runS (h _)

theorem answersFault_runSS {f : Word → Word → Effect}
    (h : ∀ u w : Word, u.toNat = matrixValue s (s.cell k).toNat →
      w.toNat = matrixValue s (s.cell (k + 1)).toNat → AnswersFault s (finish s (f u w)) g) :
    AnswersFault s (runSS s (.ofCell (s.cell k)) (.ofCell (s.cell (k + 1))) f)
      ((matrixOperands s k [.src, .src]).or g) := by
  by_cases hc : 32775 < (s.cell k).toNat
  · rw [matrixOperands_src_illegal hc]
    exact runSS_of_not_legal (.inl (Operand.ofCell_legal_src_eq_false hc))
  · obtain ⟨u, hu, hval⟩ := exists_resolve_matrixValue s hc
    rw [matrixOperands_src_legal hc, runSS, hu]
    exact answersFault_runS fun w => h u w hval

theorem answersFault_runDSS {f : RegIx → Word → Word → Effect}
    (h : ∀ r (u w : Word), u.toNat = matrixValue s (s.cell (k + 1)).toNat →
      w.toNat = matrixValue s (s.cell (k + 2)).toNat → AnswersFault s (finish s (f r u w)) g) :
    AnswersFault s
      (runDSS s (.ofCell (s.cell k)) (.ofCell (s.cell (k + 1))) (.ofCell (s.cell (k + 2))) f)
      ((matrixOperands s k [.dst, .src, .src]).or g) := by
  by_cases hc : (s.cell k).toNat < 32768 ∨ 32775 < (s.cell k).toNat
  · rw [matrixOperands_dst_illegal hc]
    exact runDSS_of_not_legal_dst (Operand.ofCell_legal_dst_eq_false hc)
  · rw [matrixOperands_dst_legal hc, ofCell_of_register hc]
    exact answersFault_runSS (h _)

/-! ### The instructions with faults of their own -/

/-- The operand in the cell `j` places after the pc. -/
def operandAfterPc (s : State) (j : Nat) : Operand := .ofCell (s.cell (s.pc.toNat + j))

/-- The first fault that the matrix names past the fetch, for an opcode and its operands' roles. -/
def matrixAfterFetch (s : State) (op : Nat) (roles : List Role) : Option FaultKind :=
  (matrixOperands s (s.pc.toNat + 1) roles).or (matrixEffect s op)

section
variable (hs : s.status = .running)
include hs

theorem answersFault_push :
    AnswersFault s (exec (.push (operandAfterPc s 1)) s) (matrixAfterFetch s 2 [.src]) := by
  rw [exec_push, matrixAfterFetch, matrixEffect_push, stackFull_eq_not_hasRoom]
  refine answersFault_runS fun v _ => ?_
  cases hr : s.hasRoom with
  | true =>
    rw [pushWord_ok.mpr ⟨hr, rfl⟩]
    exact answersFault_fallThrough hs 2 (by decide) (by decide)
  | false =>
    rw [pushWord_error.mpr ⟨hr, rfl⟩]
    exact rfl

theorem answersFault_pop :
    AnswersFault s (exec (.pop (operandAfterPc s 1)) s) (matrixAfterFetch s 3 [.dst]) := by
  rw [exec_pop, matrixAfterFetch, matrixEffect_pop]
  refine answersFault_runD fun r => ?_
  cases hst : s.stack with
  | nil =>
    rw [popWord_none.mpr hst]
    exact rfl
  | cons v st =>
    rw [popWord_some.mpr ⟨st, hst, rfl⟩]
    exact answersFault_fallThrough hs 2 (by decide) (by decide)

theorem answersFault_jmp :
    AnswersFault s (exec (.jmp (operandAfterPc s 1)) s) (matrixAfterFetch s 6 [.src]) := by
  rw [exec_jmp, matrixAfterFetch, matrixEffect_jmp]
  refine answersFault_runS fun t ht => ?_
  rw [← ht]
  exact answersFault_transfer hs t

theorem answersFault_jt :
    AnswersFault s (exec (.jt (operandAfterPc s 1) (operandAfterPc s 2)) s)
      (matrixAfterFetch s 7 [.src, .src]) := by
  rw [exec_jt, matrixAfterFetch, matrixEffect_jt]
  refine answersFault_runSS fun u t hu ht => ?_
  simp only [← hu, ← ht, isNonZero_iff]
  by_cases h0 : u.toNat ≠ 0
  · simpa only [h0, true_and, if_true, ne_eq, not_false_eq_true] using answersFault_transfer (u := s) hs t
  · simpa only [h0, false_and, if_false] using
      answersFault_fallThrough (u := s) hs 3 (by decide) (by decide)

theorem answersFault_jf :
    AnswersFault s (exec (.jf (operandAfterPc s 1) (operandAfterPc s 2)) s)
      (matrixAfterFetch s 8 [.src, .src]) := by
  rw [exec_jf, matrixAfterFetch, matrixEffect_jf]
  refine answersFault_runSS fun u t hu ht => ?_
  simp only [← hu, ← ht, isNonZero_iff, ne_eq, ite_not]
  by_cases h0 : u.toNat = 0
  · simpa only [h0, true_and, if_true] using answersFault_transfer (u := s) hs t
  · simpa only [h0, false_and, if_false] using
      answersFault_fallThrough (u := s) hs 3 (by decide) (by decide)

theorem answersFault_mod :
    AnswersFault s (exec (.mod (operandAfterPc s 1) (operandAfterPc s 2) (operandAfterPc s 3)) s)
      (matrixAfterFetch s 11 [.dst, .src, .src]) := by
  rw [exec_mod, matrixAfterFetch, matrixEffect_mod]
  refine answersFault_runDSS fun r u w _ hw => ?_
  rw [← hw]
  split_ifs
  · exact rfl
  · exact answersFault_fallThrough hs 4 (by decide) (by decide)

theorem answersFault_rmem :
    AnswersFault s (exec (.rmem (operandAfterPc s 1) (operandAfterPc s 2)) s)
      (matrixAfterFetch s 15 [.dst, .src]) := by
  rw [exec_rmem, matrixAfterFetch, matrixEffect_rmem]
  refine answersFault_runDS fun r addr ha => ?_
  simp only [← ha]
  split_ifs with hlen hcell
  · rw [memRead_error.mpr ⟨hlen, rfl⟩]
    exact rfl
  · simp only [memRead_ok.mpr ⟨Nat.not_le.mp hlen, rfl⟩, wordOfCell_error.mpr ⟨hcell, rfl⟩]
    exact rfl
  · simp only [memRead_ok.mpr ⟨Nat.not_le.mp hlen, rfl⟩, wordOfCell_ok.mpr ⟨Nat.not_lt.mp hcell, rfl⟩]
    exact answersFault_fallThrough hs 3 (by decide) (by decide)

theorem answersFault_wmem :
    AnswersFault s (exec (.wmem (operandAfterPc s 1) (operandAfterPc s 2)) s)
      (matrixAfterFetch s 16 [.src, .src]) := by
  rw [exec_wmem, matrixAfterFetch, matrixEffect_wmem]
  refine answersFault_runSS fun addr v ha _ => ?_
  rw [← ha]
  split_ifs with hlen
  · rw [memWrite_error.mpr ⟨hlen, rfl⟩]
    exact rfl
  · rw [memWrite_ok.mpr ⟨Nat.not_le.mp hlen, rfl⟩]
    exact answersFault_fallThrough hs 3 (by decide) (by decide)

theorem answersFault_call :
    AnswersFault s (exec (.call (operandAfterPc s 1)) s) (matrixAfterFetch s 17 [.src]) := by
  rw [exec_call, matrixAfterFetch, matrixEffect_call, stackFull_eq_not_hasRoom]
  refine answersFault_runS fun t ht => ?_
  rw [← ht]
  by_cases hp : s.pc.toNat + 2 > 32767
  · rw [if_pos hp, returnAddress_error.mpr ⟨hp, rfl⟩]
    exact rfl
  · rw [if_neg hp, returnAddress_ok.mpr ⟨Nat.not_lt.mp hp, rfl⟩]
    cases hr : s.hasRoom with
    | true =>
      simp only [pushWord_ok.mpr ⟨hr, rfl⟩]
      exact answersFault_transfer hs t
    | false =>
      simp only [pushWord_error.mpr ⟨hr, rfl⟩]
      exact rfl

/-- `ret` has no operand; its target is the top of the stack. -/
theorem answersFault_ret : AnswersFault s (exec .ret s) (matrixAfterFetch s 18 []) := by
  rw [matrixAfterFetch, matrixEffect_ret]
  cases hst : s.stack with
  | nil => exact ⟨s.haltNormal, exec_ret_of_nil hst, by simp⟩
  | cons t st =>
    rw [exec_ret_of_cons hst]
    simpa [matrixOperands] using answersFault_transfer (u := s.setStack st) hs t

/-- An `in` that waits ends in no fault (R100). -/
theorem answersFault_inp :
    AnswersFault s (exec (.inp (operandAfterPc s 1)) s) (matrixAfterFetch s 20 [.dst]) := by
  rw [exec_inp, matrixAfterFetch, matrixEffect_eq_none (by decide)]
  refine answersFault_runD fun r => ?_
  cases hin : s.input with
  | nil =>
    rw [takeChar_none.mpr hin]
    exact ⟨s, rfl, by simp [hs]⟩
  | cons c cs =>
    rw [takeChar_some.mpr ⟨cs, hin, rfl⟩]
    exact answersFault_fallThrough hs 2 (by decide) (by decide)

end

/-! ### Instructions and the step -/

/-- The operands stand in the cells from `k` on, in address order. -/
def OperandsAt (s : State) : Nat → List (Role × Operand) → Prop
  | _, [] => True
  | k, p :: ps => p.2 = .ofCell (s.cell k) ∧ OperandsAt s (k + 1) ps

theorem operandsAt_of_getElem {ps : List (Role × Operand)}
    (h : ∀ (j : Nat) (hj : j < ps.length), ps[j].2 = .ofCell (s.cell (k + j))) : OperandsAt s k ps := by
  induction ps generalizing k with
  | nil => trivial
  | cons p ps ih =>
    refine ⟨h 0 (Nat.succ_pos _), ih fun j hj => ?_⟩
    rw [Nat.add_right_comm, Nat.add_assoc]
    exact h (j + 1) (Nat.succ_lt_succ hj)

/-- An instruction whose operands stand in the cells after the pc takes the first fault that the matrix names
past the fetch, or none. -/
theorem exec_answersFault {i : Instr} (hs : s.status = .running) (hops : OperandsAt s (s.pc.toNat + 1) i.operands) :
    AnswersFault s (exec i s) (matrixAfterFetch s i.opcode.toNat (i.operands.map Prod.fst)) := by
  cases i with
  | halt => exact ⟨s.haltNormal, rfl, by simp⟩
  | noop => exact answersFault_fallThrough hs 1 (by decide) (by decide)
  | ret => exact answersFault_ret hs
  | push a => obtain ⟨rfl, -⟩ := hops; exact answersFault_push hs
  | pop a => obtain ⟨rfl, -⟩ := hops; exact answersFault_pop hs
  | jmp a => obtain ⟨rfl, -⟩ := hops; exact answersFault_jmp hs
  | call a => obtain ⟨rfl, -⟩ := hops; exact answersFault_call hs
  | inp a => obtain ⟨rfl, -⟩ := hops; exact answersFault_inp hs
  | jt a b => obtain ⟨rfl, rfl, -⟩ := hops; exact answersFault_jt hs
  | jf a b => obtain ⟨rfl, rfl, -⟩ := hops; exact answersFault_jf hs
  | rmem a b => obtain ⟨rfl, rfl, -⟩ := hops; exact answersFault_rmem hs
  | wmem a b => obtain ⟨rfl, rfl, -⟩ := hops; exact answersFault_wmem hs
  | mod a b c => obtain ⟨rfl, rfl, rfl, -⟩ := hops; exact answersFault_mod hs
  | out a =>
    obtain ⟨rfl, -⟩ := hops
    rw [matrixAfterFetch, matrixEffect_eq_none (by simp [Instr.opcode])]
    exact answersFault_runS fun _ _ => answersFault_fallThrough hs 2 (by decide) (by decide)
  | set a b | not a b =>
    obtain ⟨rfl, rfl, -⟩ := hops
    rw [matrixAfterFetch, matrixEffect_eq_none (by simp [Instr.opcode])]
    exact answersFault_runDS fun _ _ _ => answersFault_fallThrough hs 3 (by decide) (by decide)
  | eq a b c | gt a b c | add a b c | mult a b c | and a b c | or a b c =>
    obtain ⟨rfl, rfl, rfl, -⟩ := hops
    rw [matrixAfterFetch, matrixEffect_eq_none (by simp [Instr.opcode])]
    exact answersFault_runDSS fun _ _ _ _ _ => answersFault_fallThrough hs 4 (by decide) (by decide)

/-- Past the fetch, the matrix names the first fault of phases 3 to 5, with `FOPV` 1 (R181). -/
theorem matrixFault_of_roles {roles : List Role} (hr : matrixRoles (s.cell s.pc.toNat).toNat = some roles)
    (h : s.pc.toNat + roles.length < s.memLen.val) :
    matrixFault s = (matrixAfterFetch s (s.cell s.pc.toNat).toNat roles).map fun k => (k, true) := by
  have hp : ¬ s.memLen.val ≤ s.pc.toNat := by omega
  simp only [matrixFault, hp, hr, Nat.not_le.mpr h, if_false, matrixAfterFetch, matrixEffect]

theorem matrixFault_of_missing {roles : List Role} (hp : s.pc.toNat < s.memLen.val)
    (hr : matrixRoles (s.cell s.pc.toNat).toNat = some roles) (h : s.memLen.val ≤ s.pc.toNat + roles.length) :
    matrixFault s = some (.addressOutOfBounds, true) := by
  simp only [matrixFault, Nat.not_le.mpr hp, hr, h, if_false, if_true]

theorem matrixFault_of_illegal (hp : s.pc.toNat < s.memLen.val)
    (hr : matrixRoles (s.cell s.pc.toNat).toNat = none) : matrixFault s = some (.illegalOpcode, true) := by
  simp only [matrixFault, Nat.not_le.mpr hp, hr, if_false]

theorem matrixFault_of_beyond (hp : s.memLen.val ≤ s.pc.toNat) :
    matrixFault s = some (.addressOutOfBounds, false) := by
  simp only [matrixFault, hp, if_true]

/-- A value the table of roles does not have is above 21 (R78). -/
theorem lt_of_matrixRoles_eq_none {n : Nat} (h : matrixRoles n = none) : 21 < n := by
  by_contra hn
  obtain ⟨sh, hsh⟩ := opcodeMap_isSome.mpr (Nat.le_of_not_lt hn)
  obtain ⟨roles, hr, -⟩ := matrixRoles_of_opcodeMap hsh
  simp [h] at hr

/-- A running core's step takes the fault the matrix names, and ends in none where it names none. -/
theorem step_matrixFault (hs : s.status = .running) :
    (∃ k v, matrixFault s = some (k, v) ∧ step s = .next (s.takeFault k v)) ∨
    (matrixFault s = none ∧ ∃ t, step s = .next t ∧ t.status ≠ .haltedFault) := by
  by_cases hp : s.memLen.val ≤ s.pc.toNat
  · exact .inl ⟨_, _, matrixFault_of_beyond hp, step_of_fetch_error hs (fetch_noOpcode.mpr hp)⟩
  have hp' := Nat.not_le.mp hp
  cases hr : matrixRoles (s.cell s.pc.toNat).toNat with
  | none =>
    exact .inl ⟨_, _, matrixFault_of_illegal hp' hr,
      step_of_fetch_error hs (fetch_illegalOpcode hp' (lt_of_matrixRoles_eq_none hr))⟩
  | some roles =>
    by_cases hlen : s.memLen.val ≤ s.pc.toNat + roles.length
    · exact .inl ⟨_, _, matrixFault_of_missing hp' hr hlen,
        step_of_fetch_error hs (fetch_missingOperand hp' hr hlen)⟩
    have hlen' := Nat.not_le.mp hlen
    obtain ⟨i, hf⟩ := exists_fetch_ok hr hlen'
    have hop := opcode_of_fetch hf
    obtain rfl : i.operands.map Prod.fst = roles := by
      rw [← hop, matrixRoles_opcode] at hr
      exact Option.some.inj hr
    have hexec := exec_answersFault hs (operandsAt_of_getElem (operand_of_fetch hf))
    rw [matrixFault_of_roles hr hlen', step_of_fetch_ok hs hf, ← hop]
    cases hm : matrixAfterFetch s i.opcode.toNat (i.operands.map Prod.fst) with
    | none =>
      rw [hm] at hexec
      exact .inr ⟨rfl, hexec⟩
    | some k =>
      rw [hm] at hexec
      exact .inl ⟨k, true, rfl, hexec⟩

/-- Settles O46: the step takes the fault the matrix names, so it takes no other and none where there is none. -/
theorem stepFaultsAsTheMatrixSays : Obligations.StepFaultsAsTheMatrixSays := by
  intro s hs
  rcases step_matrixFault hs with ⟨k, v, hm, hstep⟩ | ⟨hm, hstep⟩
  · refine ⟨fun k' v' h => ?_, fun h => by simp [hm] at h⟩
    rw [hm] at h
    cases h
    exact hstep
  · exact ⟨fun k v h => by simp [hm] at h, fun _ => hstep⟩

end Sys2Proof.Machine
end

section
/-! SUPPORT. One line of source text and one instruction: what a line assembles to, and what an instruction's text
assembles to (30_encoding.md R82 to R86, 93_implementation_defined.md U27). -/

namespace Sys2Proof.Machine

variable {i : Instr} {line m : Text} {toks : List Text} {cells : List Cell}

/-! ### Operands -/

/-- Tokens that assemble are the texts of the operands their cells say. -/
theorem operandTexts_of_assembleOperands (h : assembleOperands toks = .ok cells) :
    operandTexts (cells.map Operand.ofCell) = some toks := by
  induction toks generalizing cells with
  | nil => cases h; rfl
  | cons t ts ih =>
    rw [assembleOperands] at h
    cases ho : readOperand t with
    | error e => simp [ho] at h
    | ok o =>
      cases hs : assembleOperands ts with
      | error e => simp [ho, hs] at h
      | ok cs =>
        obtain rfl : o.toCell :: cs = cells := by simpa [ho, hs] using h
        rw [List.map_cons, operandTexts, Operand.ofCell_toCell, operandText_of_readOperand ho, ih hs]

/-- The texts of a list of operands are those of the first and of the others. -/
theorem operandTexts_cons_some {o : Operand} {os : List Operand} (h : operandTexts (o :: os) = some toks) :
    ∃ t ts, operandText o = some t ∧ operandTexts os = some ts ∧ toks = t :: ts := by
  rw [operandTexts] at h
  cases ho : operandText o with
  | none => simp [ho] at h
  | some t =>
    cases hs : operandTexts os with
    | none => simp [ho, hs] at h
    | some ts => exact ⟨t, ts, rfl, rfl, by simpa [ho, hs, eq_comm] using h⟩

theorem assembleOperands_of_operandTexts {os : List Operand} (h : operandTexts os = some toks) :
    assembleOperands toks = .ok (os.map Operand.toCell) := by
  induction os generalizing toks with
  | nil => cases h; rfl
  | cons o os ih =>
    obtain ⟨t, ts, ho, hs, rfl⟩ := operandTexts_cons_some h
    rw [assembleOperands, readOperand_of_operandText ho, ih hs]
    rfl

theorem length_of_operandTexts {os : List Operand} (h : operandTexts os = some toks) :
    toks.length = os.length := by
  induction os generalizing toks with
  | nil => cases h; rfl
  | cons o os ih =>
    obtain ⟨t, ts, -, hs, rfl⟩ := operandTexts_cons_some h
    rw [List.length_cons, List.length_cons, ih hs]

/-- No operand text holds a space or a line feed. -/
theorem operandTexts_no_sep {os : List Operand} (h : operandTexts os = some toks) {c : Char} (hc : c.toNat < 48) :
    ∀ t ∈ toks, c ∉ t := by
  induction os generalizing toks with
  | nil => cases h; simp
  | cons o os ih =>
    obtain ⟨t, ts, ho, hs, rfl⟩ := operandTexts_cons_some h
    exact List.forall_mem_cons.mpr ⟨operandText_no_sep ho c hc, ih hs⟩

/-- Operands that are legal in some position have a text. -/
theorem exists_operandTexts {ps : List (Role × Operand)} (h : ∀ p ∈ ps, p.2.legal p.1 = true) :
    ∃ toks, operandTexts (ps.map Prod.snd) = some toks := by
  induction ps with
  | nil => exact ⟨[], rfl⟩
  | cons p ps ih =>
    obtain ⟨hp, hps⟩ := List.forall_mem_cons.mp h
    obtain ⟨ts, hts⟩ := ih hps
    have ht : ∃ t, operandText p.2 = some t := by
      obtain ⟨ρ, o⟩ := p
      cases o with
      | lit v => exact ⟨_, rfl⟩
      | reg r => exact ⟨_, rfl⟩
      | invalid k => cases ρ <;> cases hp
    obtain ⟨t, ht⟩ := ht
    exact ⟨t :: ts, by rw [List.map_cons, operandTexts, ht, hts]⟩

/-! ### Lines and instructions -/

/-- The text of an instruction is its mnemonic and its operand texts, one space before each operand. -/
theorem instrText_some : instrText i = some line ↔
    ∃ m toks, mnemonics[i.opcode.toNat]? = some m ∧ operandTexts (i.operands.map Prod.snd) = some toks ∧
      line = joinText ' ' (m :: toks) := by
  unfold instrText
  cases mnemonics[i.opcode.toNat]? <;> cases operandTexts (i.operands.map Prod.snd) <;> simp [eq_comm]

/-- Every opcode has a mnemonic. -/
theorem exists_mnemonic (i : Instr) : ∃ m, mnemonics[i.opcode.toNat]? = some m := by
  cases i <;> exact ⟨_, rfl⟩

/-- A well-formed instruction has a text. -/
theorem exists_instrText (h : i.wellFormed = true) : ∃ line, instrText i = some line := by
  obtain ⟨m, hm⟩ := exists_mnemonic i
  obtain ⟨toks, ht⟩ := exists_operandTexts (List.all_eq_true.mp h)
  exact ⟨_, instrText_some.mpr ⟨m, toks, hm, ht, rfl⟩⟩

/-- The opcode map has the instruction's opcode, with as many operand cells as the instruction has operands. -/
theorem exists_opcodeMap_opcode (i : Instr) : ∃ sh, opcodeMap i.opcode.toNat = some sh ∧
    sh.count = i.operands.length := by
  simpa using opcodeMap_of_matrixRoles (matrixRoles_opcode i)

/-- What the assembler does with the words of a line, once they are split (R82 to R84, U27). -/
theorem assembleLine_of_words {n : Nat} {sh : Shape} (hsplit : splitText ' ' line = m :: toks)
    (hm : mnemonics[n]? = some m) (hsh : opcodeMap n = some sh) :
    assembleLine line =
      if toks.length = sh.count then
        (assembleOperands toks).bind fun cs => checkRoles (BitVec.ofNat 16 n :: cs)
      else .error (.operandCount sh.count toks.length) := by
  rw [assembleLine, hsplit]
  simp only [(opcodeOfText_iff m n).mpr hm, hsh]
  cases assembleOperands toks <;> rfl

/-- A mnemonic and operand texts hold no space, so a line of them splits into them. -/
theorem splitText_instrText {n : Nat} {os : List Operand} (hm : mnemonics[n]? = some m)
    (ht : operandTexts os = some toks) : splitText ' ' (joinText ' ' (m :: toks)) = m :: toks := by
  apply splitText_joinText _ _ (by simp)
  exact List.forall_mem_cons.mpr
    ⟨mnemonic_no_sep hm ' ' (by decide), operandTexts_no_sep ht (by decide)⟩

/-- The text of an instruction assembles to its cells, unless a destination is a literal (U27). -/
theorem assembleLine_of_instrText (h : instrText i = some line) : assembleLine line =
    if i.wellFormed then .ok (encode i) else .error .literalDestination := by
  obtain ⟨m, toks, hm, ht, rfl⟩ := instrText_some.mp h
  obtain ⟨sh, hsh, hcount⟩ := exists_opcodeMap_opcode i
  have hlen : toks.length = sh.count := by
    rw [length_of_operandTexts ht, List.length_map, hcount]
  have hcells : BitVec.ofNat 16 i.opcode.toNat :: (i.operands.map Prod.snd).map Operand.toCell = encode i := by
    rw [BitVec.ofNat_toNat, BitVec.setWidth_eq, encode, List.map_map]
    rfl
  rw [assembleLine_of_words (splitText_instrText hm ht) hm hsh, if_pos hlen,
    assembleOperands_of_operandTexts ht, ← checkRoles_encode, ← hcells]
  rfl

/-- The role check passes only whole well-formed instructions. -/
theorem checkRoles_ok {cs : List Cell} (h : checkRoles cells = .ok cs) :
    cs = cells ∧ ∃ i r, decode cells = .ok (i, r) := by
  unfold checkRoles at h
  split at h
  · cases h
  · rename_i i r hd
    split_ifs at h
    cases h
    exact ⟨rfl, i, r, hd⟩

/-- A line that assembles has a mnemonic, as many operands as it asks for, and the cells of both. -/
theorem assembleLine_ok (h : assembleLine line = .ok cells) :
    ∃ m toks n sh cs, splitText ' ' line = m :: toks ∧ mnemonics[n]? = some m ∧ opcodeMap n = some sh ∧
      toks.length = sh.count ∧ assembleOperands toks = .ok cs ∧
      checkRoles (BitVec.ofNat 16 n :: cs) = .ok cells := by
  unfold assembleLine at h
  split at h
  · cases h
  rename_i m toks hsplit
  split at h
  · cases h
  rename_i n hn
  split at h
  · cases h
  rename_i sh hsh
  split_ifs at h with hlen
  split at h
  · cases h
  rename_i cs hcs
  exact ⟨m, toks, n, sh, cs, hsplit, (opcodeOfText_iff m n).mp hn, hsh, hlen, hcs, h⟩

theorem length_of_assembleOperands (h : assembleOperands toks = .ok cells) : cells.length = toks.length := by
  simpa using (length_of_operandTexts (operandTexts_of_assembleOperands h)).symm

/-- A line that assembles is the text of the instruction whose cells it gives (R86). -/
theorem instrText_of_assembleLine (h : assembleLine line = .ok cells) :
    ∃ i, cells = encode i ∧ instrText i = some line := by
  obtain ⟨m, toks, n, sh, cs, hsplit, hm, hsh, hlen, hcs, hroles⟩ := assembleLine_ok h
  obtain ⟨rfl, i, r, hd⟩ := checkRoles_ok hroles
  have hn : (BitVec.ofNat 16 n).toNat = n := by
    have hle := opcodeMap_isSome.mp ⟨sh, hsh⟩
    rw [BitVec.toNat_ofNat, Nat.mod_eq_of_lt (by omega)]
  have hr : r = [] := by
    rw [decode_cons_of_opcodeMap (hn.symm ▸ hsh)] at hd
    have hcount := takeOperands_ok hd
    have hcells := length_of_assembleOperands hcs
    exact List.length_eq_zero_iff.mp (by omega)
  have henc : BitVec.ofNat 16 n :: cs = encode i := by
    simpa [hr] using eq_encode_append_of_decode hd
  obtain ⟨hop, hopers⟩ := List.cons.inj henc
  have htexts : operandTexts (i.operands.map Prod.snd) = some toks := by
    have hs := operandTexts_of_assembleOperands hcs
    rw [hopers, List.map_map] at hs
    simpa [Function.comp_def] using hs
  refine ⟨i, henc, instrText_some.mpr ⟨m, toks, ?_, htexts, ?_⟩⟩
  · rw [← hop, hn]
    exact hm
  · rw [← hsplit, joinText_splitText]

/-- No text of an instruction holds a line feed. -/
theorem instrText_no_newline (h : instrText i = some line) : '\n' ∉ line := by
  obtain ⟨m, toks, hm, ht, rfl⟩ := instrText_some.mp h
  have hwords : ∀ w ∈ m :: toks, '\n' ∉ w := List.forall_mem_cons.mpr
    ⟨mnemonic_no_sep hm '\n' (by decide), operandTexts_no_sep ht (by decide)⟩
  generalize m :: toks = ws at hwords
  induction ws using joinText.induct with
  | case1 => simp [joinText]
  | case2 w => simpa [joinText] using hwords
  | case3 w v ws ih =>
    obtain ⟨hw, hvs⟩ := List.forall_mem_cons.mp hwords
    rw [joinText, List.mem_append, List.mem_cons, not_or, not_or]
    exact ⟨hw, by decide, ih hvs⟩

end Sys2Proof.Machine
end

section
/-! SUPPORT. Assembling and disassembling whole sources, line by line; then the statements on the text form
(30_encoding.md R82 to R86, 93_implementation_defined.md U27). -/

namespace Sys2Proof.Machine

variable {i : Instr} {l : Text} {ls : List Text} {cells : List Cell}

/-! ### Line by line -/

theorem assembleLines_cons_error {n : Nat} {e : SyntaxReason} (h : assembleLine l = .error e) :
    assembleLines n (l :: ls) = .error ⟨n, e⟩ := by
  rw [assembleLines, h]

theorem assembleLines_cons_ok {n : Nat} {cs : List Cell} (h : assembleLine l = .ok cs) :
    assembleLines n (l :: ls) = (assembleLines (n + 1) ls).map (cs ++ ·) := by
  rw [assembleLines, h]
  cases assembleLines (n + 1) ls <;> rfl

/-- A source that assembles has a first line that does, and so have the lines after it. -/
theorem assembleLines_cons_eq_ok {n : Nat} (h : assembleLines n (l :: ls) = .ok cells) :
    ∃ cs rest, assembleLine l = .ok cs ∧ assembleLines (n + 1) ls = .ok rest ∧ cells = cs ++ rest := by
  cases hl : assembleLine l with
  | error e => simp [assembleLines_cons_error hl] at h
  | ok cs =>
    rw [assembleLines_cons_ok hl] at h
    cases hr : assembleLines (n + 1) ls with
    | error e => rw [hr] at h; cases h
    | ok rest => rw [hr] at h; cases h; exact ⟨cs, rest, rfl, rfl, rfl⟩

/-- The cells of an instruction are the first line of the disassembly, and the cells after them the others. -/
theorem disassembleLines_encode_append {fuel : Nat} (hi : instrText i = some l)
    (h : disassembleLines fuel cells = some ls) :
    disassembleLines (fuel + 1) (encode i ++ cells) = some (l :: ls) := by
  have hd := decode_encode_append i cells
  rw [encode, List.cons_append] at hd ⊢
  simp only [disassembleLines, hd, hi, h]

/-- A disassembly starts with the text of an instruction whose cells the image starts with. -/
theorem disassembleLines_cons_some {fuel : Nat} {c : Cell}
    (h : disassembleLines (fuel + 1) (c :: cells) = some ls) :
    ∃ i rest l ls', c :: cells = encode i ++ rest ∧ instrText i = some l ∧
      disassembleLines fuel rest = some ls' ∧ ls = l :: ls' := by
  rw [disassembleLines] at h
  split at h
  · cases h
  rename_i i rest hd
  split at h
  · rename_i l ls' hi hls
    cases h
    exact ⟨i, rest, l, ls', eq_encode_append_of_decode hd, hi, hls, rfl⟩
  · cases h

theorem encode_length_pos (i : Instr) : 0 < (encode i).length := Nat.succ_pos _

/-- Lines that assemble are the disassembly of their cells, whatever fuel above the cells' number. -/
theorem disassembleLines_of_assembleLines {n fuel : Nat} (h : assembleLines n ls = .ok cells)
    (hfuel : cells.length ≤ fuel) : disassembleLines fuel cells = some ls := by
  induction ls generalizing n fuel cells with
  | nil => cases h; cases fuel <;> rfl
  | cons l ls ih =>
    obtain ⟨cs, rest, hl, hrest, rfl⟩ := assembleLines_cons_eq_ok h
    obtain ⟨i, rfl, hi⟩ := instrText_of_assembleLine hl
    have hpos := encode_length_pos i
    rw [List.length_append] at hfuel
    obtain ⟨f, rfl⟩ : ∃ f, fuel = f + 1 := ⟨fuel - 1, by omega⟩
    exact disassembleLines_encode_append hi (ih hrest (by omega))

/-- The lines of a disassembly assemble to its cells, or are refused for a literal destination (U27). -/
theorem assembleLines_of_disassembleLines {fuel : Nat} (n : Nat) (h : disassembleLines fuel cells = some ls) :
    assembleLines n ls = .ok cells ∨ ∃ line, assembleLines n ls = .error ⟨line, .literalDestination⟩ := by
  induction fuel generalizing n cells ls with
  | zero =>
    cases cells with
    | nil => cases h; exact .inl rfl
    | cons c cs => cases h
  | succ fuel ih =>
    cases cells with
    | nil => cases h; exact .inl rfl
    | cons c cs =>
      obtain ⟨i, rest, l, ls', hcells, hi, hrest, rfl⟩ := disassembleLines_cons_some h
      have hl := assembleLine_of_instrText hi
      rw [hcells]
      split_ifs at hl with hwf
      · rw [assembleLines_cons_ok hl]
        rcases ih (n + 1) hrest with hls | ⟨line, hls⟩
        · exact .inl (by rw [hls]; rfl)
        · exact .inr ⟨line, by rw [hls]; rfl⟩
      · exact .inr ⟨n, assembleLines_cons_error hl⟩

/-- The cells of well-formed instructions have a disassembly, one line each, that assembles to them. -/
theorem exists_disassembleLines {is : List Instr} (h : ∀ i ∈ is, i.wellFormed = true) {fuel : Nat}
    (hfuel : (is.flatMap encode).length ≤ fuel) :
    ∃ ls, disassembleLines fuel (is.flatMap encode) = some ls ∧
      ∀ n, assembleLines n ls = .ok (is.flatMap encode) := by
  induction is generalizing fuel with
  | nil => exact ⟨[], by cases fuel <;> rfl, fun _ => rfl⟩
  | cons i is ih =>
    obtain ⟨hi, his⟩ := List.forall_mem_cons.mp h
    obtain ⟨l, hl⟩ := exists_instrText hi
    have hpos := encode_length_pos i
    rw [List.flatMap_cons, List.length_append] at hfuel
    obtain ⟨f, rfl⟩ : ∃ f, fuel = f + 1 := ⟨fuel - 1, by omega⟩
    obtain ⟨ls, hls, hasm⟩ := ih his (fuel := f) (by omega)
    refine ⟨l :: ls, disassembleLines_encode_append hl hls, fun n => ?_⟩
    have hline : assembleLine l = .ok (encode i) := by rw [assembleLine_of_instrText hl, if_pos hi]
    rw [assembleLines_cons_ok hline, hasm]
    rfl

/-! ### Whole texts -/

theorem disassemble_some {src : Text} : disassemble cells = some src ↔
    ∃ ls, disassembleLines cells.length cells = some ls ∧ src = joinText '\n' ls := by
  unfold disassemble
  cases disassembleLines cells.length cells <;> simp [eq_comm]

/-- The lines of a disassembly hold no line feed. -/
theorem disassembleLines_no_newline {fuel : Nat} (h : disassembleLines fuel cells = some ls) :
    ∀ l ∈ ls, '\n' ∉ l := by
  induction fuel generalizing cells ls with
  | zero =>
    cases cells with
    | nil => cases h; simp
    | cons c cs => cases h
  | succ fuel ih =>
    cases cells with
    | nil => cases h; simp
    | cons c cs =>
      obtain ⟨i, rest, l, ls', -, hi, hrest, rfl⟩ := disassembleLines_cons_some h
      exact List.forall_mem_cons.mpr ⟨instrText_no_newline hi, ih hrest⟩

/-- The text of a disassembly with a line at all assembles as its lines do. -/
theorem assemble_joinText {fuel : Nat} (hne : cells ≠ []) (h : disassembleLines fuel cells = some ls) :
    assemble (joinText '\n' ls) = assembleLines 1 ls := by
  have hls : ls ≠ [] := by
    obtain ⟨c, cs, rfl⟩ := List.exists_cons_of_ne_nil hne
    cases fuel with
    | zero => cases h
    | succ fuel =>
      obtain ⟨_, _, l, ls', -, -, -, rfl⟩ := disassembleLines_cons_some h
      exact List.cons_ne_nil l ls'
  rw [assemble, splitText_joinText _ _ hls (disassembleLines_no_newline h)]

/-! ### The statements -/

/-- Settles O57: the lines of the source are the disassembly of its cells, and joined they are the source. -/
theorem disassemblyOfAssemblyIsTheSource : Obligations.DisassemblyOfAssemblyIsTheSource := by
  intro src cells h
  exact disassemble_some.mpr
    ⟨_, disassembleLines_of_assembleLines h le_rfl, (joinText_splitText '\n' src).symm⟩

/-- Settles O58: by induction over the instructions for those that are well formed, and over the lines of the
disassembly for any image. -/
theorem assemblyOfDisassemblyIsTheImage : Obligations.AssemblyOfDisassemblyIsTheImage := by
  constructor
  · intro is hne hwf
    obtain ⟨ls, hls, hasm⟩ := exists_disassembleLines hwf le_rfl
    have hcells : is.flatMap encode ≠ [] := by
      obtain ⟨i, is', rfl⟩ := List.exists_cons_of_ne_nil hne
      simp [encode]
    exact ⟨_, disassemble_some.mpr ⟨ls, hls, rfl⟩, (assemble_joinText hcells hls).trans (hasm 1)⟩
  · intro src cells hne h
    obtain ⟨ls, hls, rfl⟩ := disassemble_some.mp h
    rw [assemble_joinText hne hls]
    exact assembleLines_of_disassembleLines 1 hls

/-- An operand that has a text is no invalid cell (R83). -/
theorem toCell_le_of_operandText {o : Operand} {t : Text} (h : operandText o = some t) :
    o.toCell.toNat ≤ 32775 := by
  cases o with
  | lit v =>
    have hv := v.isLt
    rw [Operand.toCell_lit_toNat]
    omega
  | reg r =>
    have hr := r.isLt
    rw [Operand.toCell_reg_toNat]
    omega
  | invalid k => cases h

/-- The lines before a bad one do not change what is reported but for its number. -/
theorem assembleLines_append_error {n : Nat} {bad : Text} {rest : List Text} {e : SyntaxReason}
    (h : assembleLines n ls = .ok cells) (he : assembleLine bad = .error e) :
    assembleLines n (ls ++ bad :: rest) = .error ⟨n + ls.length, e⟩ := by
  induction ls generalizing n cells with
  | nil => exact assembleLines_cons_error he
  | cons l ls ih =>
    obtain ⟨cs, cells', hl, hls, -⟩ := assembleLines_cons_eq_ok h
    rw [List.cons_append, assembleLines_cons_ok hl, ih hls, List.length_cons, Nat.add_right_comm, Nat.add_assoc]
    rfl

/-- A word that splits into itself holds no separator. -/
theorem not_mem_of_splitText_eq {sep : Char} {t : Text} (h : splitText sep t = [t]) : sep ∉ t :=
  not_mem_of_mem_splitText sep t t (by simp [h])

/-- Settles O59: tokens read as operands that have a text, the operand count is the table's, good lines are
passed over, and a literal destination is not well formed. -/
theorem assemblerRejectsBadLines : Obligations.AssemblerRejectsBadLines := by
  refine ⟨fun t o h => toCell_le_of_operandText (operandText_of_readOperand h), ?_, ?_, ?_⟩
  · intro m toks n roles hm hn hroles htoks hlen
    obtain ⟨sh, hsh, hcount⟩ := opcodeMap_of_matrixRoles hroles
    have hsplit : splitText ' ' (joinText ' ' (m :: toks)) = m :: toks := by
      apply splitText_joinText _ _ (by simp)
      exact List.forall_mem_cons.mpr
        ⟨not_mem_of_splitText_eq hm, fun t ht => not_mem_of_splitText_eq (htoks t ht)⟩
    rw [assembleLine_of_words hsplit hn hsh, hcount, if_neg hlen]
  · intro good bad rest cells e hgood hbad
    rw [assembleLines_append_error hgood hbad, Nat.add_comm]
  · intro i line h hlit
    obtain ⟨v, hv⟩ := hlit
    rw [assembleLine_of_instrText h, not_wellFormed_of_lit_dst hv]
    rfl

end Sys2Proof.Machine
end
